-- ==== Sys2Proof/Word.lean ====
section
/-! DEFINITION. The words of the block (spec/00_scope.md R8: bit 0 is the least significant bit of every word). -/

namespace Sys2Proof

/-- One storage slot's contents: exactly one bit (R22). -/
abbrev Bit := BitVec 1

/-- The byte operand of INJECT_BYTE (R80). -/
abbrev Byte := BitVec 8

/-- A command word at the port: 64 bits, a parallel word with no byte order (R45, R60). -/
abbrev CommandWord := BitVec 64

/-- The RESULT field of a response, and the counter POS: 64 bits (R26, R66). -/
abbrev Word64 := BitVec 64

/-- The result type of READ_BITS: `W = 32` bits (R5, R90). -/
abbrev ReadResult := BitVec 32

end Sys2Proof
end

