-- ==== Sys2Proof/Config.lean ====
section
/-! DEFINITION. The build-time parameters of the block (spec/00_scope.md R5). `LOG2_CAP` and `CHECKED` are
arguments of the model (the structure `Build`); the other parameters are the numbers the spec fixes. The spec leaves
no value free, so there is no opaque constant here. -/

namespace Sys2Proof

namespace Config

/-- `W`, the width of READ_BITS' result type (R5, R90). -/
abbrev resultWidth : Nat := 32

/-- The largest `LOG2_CAP` a build may have (R5). -/
abbrev maxLog2Cap : Nat := 32

end Config

/-- The parameters a block is built with, fixed for its life (R5, R27). The range of `LOG2_CAP` is its type, so no
`Build` has a capacity the spec refuses to build (R7). -/
structure Build where
  /-- `LOG2_CAP`, 0 to 32. -/
  log2Cap : Fin (Config.maxLog2Cap + 1)
  /-- `CHECKED`: false is baseline mode, true is checked mode. -/
  checked : Bool
  deriving DecidableEq, Repr

/-- `CAP = 2 ^ LOG2_CAP`, the number of storage slots (R5). -/
def Build.cap (b : Build) : Nat := 2 ^ b.log2Cap.val

/-- The build that `State.reset` stands for. DESIGN CHOICE (log entry 1): the spec leaves both parameters open and
forces no default; 32768 bits is the capacity of the source's concrete scenario, and baseline mode is the one
"faithful to source behavior". Unsafe for a claim about `State.reset` alone, so none is made: the statements hold for
every build. -/
def Config.resetBuild : Build := ⟨15, false⟩

end Sys2Proof
end

