-- ==== Sys2Proof/Syntax.lean ====
section
/-! DEFINITION. The six commands (spec/30_encoding.md R62, R64), and the assembler's lines (R70, R71). -/

namespace Sys2Proof

/-- A legal command with its operand, one constructor per row of the opcode table. The operands have exactly the widths
of their fields (R62, R63), so every `Instr` is a well-formed command. -/
inductive Instr where
  /-- `INJECT_BYTE value` (R80). -/
  | injectByte (value : Byte)
  /-- `READ_BITS n`, `n` from 0 to 63 (R90). -/
  | readBits (n : BitVec 6)
  /-- `READ_ONE_BIT` (R93). -/
  | readOneBit
  /-- `POSITION` (R110). -/
  | position
  /-- `REWIND_BITS count` (R120). -/
  | rewindBits (count : BitVec 60)
  /-- `REWIND_BYTES count` (R121). -/
  | rewindBytes (count : BitVec 60)
  deriving DecidableEq, Repr

/-- A core line of assembler source: a mnemonic and the number written after it, of any size (R70). -/
inductive AsmCore where
  | injectByte (v : Nat)
  | readBits (n : Nat)
  | readOneBit
  | position
  | rewindBits (c : Nat)
  | rewindBytes (c : Nat)
  deriving DecidableEq, Repr

/-- A line of assembler source: a core line (R70) or a pseudo-instruction (R71). -/
inductive AsmLine where
  | core (c : AsmCore)
  /-- `READ_BYTE` -/
  | readByte
  /-- `PEEK_BITS n` -/
  | peekBits (n : Nat)
  /-- `NOP` -/
  | nop
  deriving DecidableEq, Repr

end Sys2Proof
end

