-- ==== Sys2Proof/WellFormed.lean ====
section
/-! DEFINITION. Well-formedness. An `Instr` needs no check: its fields' types are the encoding's widths. What can be
ill formed is an assembler line (an operand outside its range is an assembly error, R70) and a command word (an
opcode without a command, or a reserved bit set, R62 and R65). -/

namespace Sys2Proof

/-- The operand's range in the assembler's table (R70). -/
def AsmCore.inRange : AsmCore → Bool
  | .injectByte v => decide (v ≤ 255)
  | .readBits n => decide (n ≤ 63)
  | .readOneBit => true
  | .position => true
  | .rewindBits c => decide (c < 2 ^ 60)
  | .rewindBytes c => decide (c < 2 ^ 60)

/-- The core lines a line stands for: itself, or a pseudo-instruction's expansion (R71). -/
def AsmLine.expand : AsmLine → List AsmCore
  | .core c => [c]
  | .readByte => [.readBits 8]
  | .peekBits n => [.readBits n, .rewindBits n]
  | .nop => [.position]

/-- A line assembles when every operand of its expansion is in range (R70; for PEEK_BITS log entry 13, DEDUCED). -/
def AsmLine.wellFormed (l : AsmLine) : Bool := l.expand.all AsmCore.inRange

/-- A row of the match/mask table on the whole word (R64). -/
structure OpcodeRow where
  mnemonic : String
  pattern : CommandWord
  mask : CommandWord
  deriving DecidableEq, Repr

/-- The match/mask table (R64). -/
def opcodeTable : List OpcodeRow :=
  [ ⟨"INJECT_BYTE", 0x1000000000000000#64, 0xFFFFFFFFFFFFFF00#64⟩,
    ⟨"READ_BITS", 0x2000000000000000#64, 0xFFFFFFFFFFFFFFC0#64⟩,
    ⟨"READ_ONE_BIT", 0x3000000000000000#64, 0xFFFFFFFFFFFFFFFF#64⟩,
    ⟨"POSITION", 0x4000000000000000#64, 0xFFFFFFFFFFFFFFFF#64⟩,
    ⟨"REWIND_BITS", 0x5000000000000000#64, 0xF000000000000000#64⟩,
    ⟨"REWIND_BYTES", 0x6000000000000000#64, 0xF000000000000000#64⟩ ]

/-- A word is the row's command when `CW & mask == match` (R64). -/
def OpcodeRow.admits (r : OpcodeRow) (cw : CommandWord) : Bool := cw &&& r.mask == r.pattern

/-- A command word is legal when some row of the opcode map admits it (R64, R65). -/
def CommandWord.wellFormed (cw : CommandWord) : Bool := opcodeTable.any (·.admits cw)

end Sys2Proof
end

