-- ==== Sys2Proof/Decode.lean ====
section
/-! DEFINITION. Decoding and encoding of command words (spec/30_encoding.md sections 2 and 3) and the assembler
(section 5). -/

namespace Sys2Proof

/-- Why a word is illegal (R65). The names are the model's; the block answers both with the one status
INVALID_COMMAND (log entry 14). -/
inductive IllegalWord where
  /-- `OP` is 0x0 or 0x7 to 0xF. -/
  | opcode
  /-- A reserved bit of the opcode's format is 1. -/
  | reservedBit
  deriving DecidableEq, Repr

/-- What a command word decodes to: a command with its operand, or illegal (R69). -/
inductive Decoded where
  | command (i : Instr)
  | illegal (why : IllegalWord)
  deriving DecidableEq, Repr

/-- A format with reserved bits is a command only when they are all zero (R62). -/
def withReservedZero {w : Nat} (reserved : BitVec w) (i : Instr) : Decoded :=
  if reserved = 0 then .command i else .illegal .reservedBit

/-- Decoding of every 64-bit word, by the pseudocode of R69. -/
def decode (cw : CommandWord) : Decoded :=
  match (cw.extractLsb 63 60).toNat with
  | 0x1 => withReservedZero (cw.extractLsb 59 8) (.injectByte (cw.extractLsb 7 0))
  | 0x2 => withReservedZero (cw.extractLsb 59 6) (.readBits (cw.extractLsb 5 0))
  | 0x3 => withReservedZero (cw.extractLsb 59 0) .readOneBit
  | 0x4 => withReservedZero (cw.extractLsb 59 0) .position
  | 0x5 => .command (.rewindBits (cw.extractLsb 59 0))
  | 0x6 => .command (.rewindBytes (cw.extractLsb 59 0))
  | _ => .illegal .opcode

/-- The command word of a command, field by field from the format tables (R62) and the opcode map (R64). -/
def encode : Instr → CommandWord
  | .injectByte value => 0x1#4 ++ 0#52 ++ value
  | .readBits n => 0x2#4 ++ 0#54 ++ n
  | .readOneBit => 0x3#4 ++ 0#60
  | .position => 0x4#4 ++ 0#60
  | .rewindBits count => 0x5#4 ++ count
  | .rewindBytes count => 0x6#4 ++ count

/-- The command a decoding gives, if it is one. -/
def Decoded.command? : Decoded → Option Instr
  | .command i => some i
  | .illegal _ => none

/-- The word whose bits `nbits-1 .. 0` are those of `w`, every higher bit 0. -/
def tableWord (nbits w : Nat) : CommandWord := BitVec.ofNat 64 (w % 2 ^ nbits)

/-- The command the decoder reads from the bits `w` of an opcode table row of `nbits` bits (64 in every row). -/
def decodeTableWord (nbits w : Nat) : Option Instr := (decode (tableWord nbits w)).command?

/-- The word of a core line: the opcode's match value OR the operand (R70). -/
def AsmCore.word : AsmCore → CommandWord
  | .injectByte v => 0x1000000000000000#64 ||| BitVec.ofNat 64 v
  | .readBits n => 0x2000000000000000#64 ||| BitVec.ofNat 64 n
  | .readOneBit => 0x3000000000000000#64
  | .position => 0x4000000000000000#64
  | .rewindBits c => 0x5000000000000000#64 ||| BitVec.ofNat 64 c
  | .rewindBytes c => 0x6000000000000000#64 ||| BitVec.ofNat 64 c

/-- The words of a line; none is an assembly error (R70, R71). -/
def assemble (l : AsmLine) : Option (List CommandWord) :=
  if l.wellFormed then some (l.expand.map AsmCore.word) else none

/-- The command a core line with its operand in range stands for. -/
def AsmCore.instr : AsmCore → Instr
  | .injectByte v => .injectByte (BitVec.ofNat 8 v)
  | .readBits n => .readBits (BitVec.ofNat 6 n)
  | .readOneBit => .readOneBit
  | .position => .position
  | .rewindBits c => .rewindBits (BitVec.ofNat 60 c)
  | .rewindBytes c => .rewindBytes (BitVec.ofNat 60 c)

/-! The assembler's text (R70): one command a line, the mnemonic, then its operand as a decimal or 0x hexadecimal
number; `;` starts a comment. Letter case and blanks are log entry 12. -/

/-- The pieces of a text between the characters that `p` picks, empty pieces included. -/
def splitText (p : Char → Bool) : List Char → List (List Char)
  | [] => [[]]
  | c :: cs =>
    if p c then [] :: splitText p cs
    else match splitText p cs with
      | [] => [[c]]
      | w :: ws => (c :: w) :: ws

/-- A digit's value, if it is a digit of the base (10 or 16). -/
def digitValue (base : Nat) (c : Char) : Option Nat :=
  let n := c.toNat
  let v? := if 48 ≤ n ∧ n ≤ 57 then some (n - 48)
    else if 65 ≤ n ∧ n ≤ 70 then some (n - 55)
    else if 97 ≤ n ∧ n ≤ 102 then some (n - 87)
    else none
  v?.filter (· < base)

/-- The number that the digits after the already read value `acc` write. -/
def digitsValue (base : Nat) : Nat → List Char → Option Nat
  | acc, [] => some acc
  | acc, c :: cs => (digitValue base c).bind fun d => digitsValue base (base * acc + d) cs

/-- A decimal or `0x` hexadecimal number. -/
def numberValue : List Char → Option Nat
  | [] => none
  | '0' :: 'x' :: ds => if ds.isEmpty then none else digitsValue 16 0 ds
  | ds => digitsValue 10 0 ds

/-- The mnemonics that stand alone on a line (R70, R71). -/
def bareLine (m : String) : Option AsmLine :=
  if m = "READ_ONE_BIT" then some (.core .readOneBit)
  else if m = "POSITION" then some (.core .position)
  else if m = "READ_BYTE" then some .readByte
  else if m = "NOP" then some .nop
  else none

/-- The mnemonics that take an operand (R70, R71). -/
def operandLine (m : String) (v : Nat) : Option AsmLine :=
  if m = "INJECT_BYTE" then some (.core (.injectByte v))
  else if m = "READ_BITS" then some (.core (.readBits v))
  else if m = "REWIND_BITS" then some (.core (.rewindBits v))
  else if m = "REWIND_BYTES" then some (.core (.rewindBytes v))
  else if m = "PEEK_BITS" then some (.peekBits v)
  else none

/-- The words of one line of source text; an empty line has none. -/
def assembleLine (text : List Char) : Option (List CommandWord) :=
  let code := text.takeWhile (· != ';')
  match (splitText (fun c => c = ' ' || c = '\t' || c = '\r') code).filter (!·.isEmpty) with
  | [] => some []
  | [m] => (bareLine (String.ofList m)).bind assemble
  | [m, v] => (numberValue v).bind fun n => (operandLine (String.ofList m) n).bind assemble
  | _ => none

/-- The words of a source text, line by line; none is an assembly error. -/
def assembleText (text : String) : Option (List CommandWord) :=
  ((splitText (· = '\n') text.toList).mapM assembleLine).map List.flatten

end Sys2Proof
end

