-- ==== Sys2Proof/Machine/State.lean ====
section
/-! DEFINITION. The architectural state (spec/10_state.md R30), the port's input and output, and the state after
reset (spec/70_reset_and_hazards.md R161). -/

namespace Sys2Proof.Machine

/-- The contents of the slots: the pairs (slot, bit) of the slots that hold 1, slots rising. A slot that is not listed
holds 0, the reset value of every slot (R22, R50). Log entry 8. -/
abbrev Memory := List (Nat × Bit)

/-- The canonical form: slots strictly rising, and no entry equal to what an unlisted slot reads as. -/
abbrev Memory.wf (m : Memory) : Prop := m.Pairwise (fun a b => a.1 < b.1) ∧ ∀ c ∈ m, c.2 ≠ 0#1

/-- The named status codes (R67). -/
inductive Status where
  /-- Every command that completes. -/
  | ok
  /-- An illegal word, both modes (R144). -/
  | invalidCommand
  /-- READ_BITS with n > 32, checked mode only (R145). -/
  | readWidthOutOfRange
  /-- A rewind by more than POS bits, checked mode only (R146). -/
  | rewindUnderflow
  /-- Names the elaboration refusal; never on the port (R143). -/
  | invalidCapacity
  deriving DecidableEq, Repr

/-- A command's response (R66). -/
structure Response where
  status : Status
  result : Word64
  deriving DecidableEq, Repr

/-- What the outside can present to the block: a command word at the port, or the reset input (R60, R160). -/
inductive PortInput where
  | command (cw : CommandWord)
  | reset
  deriving DecidableEq, Repr

/-- The block, with the environment's side of its port. -/
structure State where
  /-- The build-time parameters; no input changes them (R27, R161). -/
  build : Build
  /-- `S`, the slots (R22). -/
  storage : Memory
  /-- `WC`, the write cursor (R23); below CAP in every state a run reaches. -/
  wc : Nat
  /-- `RC`, the read cursor (R24); below CAP in every state a run reaches. -/
  rc : Nat
  /-- `POS`, the consumed-bit counter (R26). -/
  pos : Word64
  /-- The MODEL's own: the inputs presented and not yet accepted, in the order presented (R55; log entry 2). -/
  port : List PortInput
  /-- The MODEL's own: the responses delivered, oldest first. The block keeps none of them (R30; log entry 3). -/
  responses : List Response
  deriving DecidableEq, Repr

/-- Why the machine stops. No step does: the block reports a command's fault in its response and goes on (R140). -/
inductive Fault where
  /-- Raised by `construct` alone, for a capacity that is not built (R7, R143). Safe: no such block exists. -/
  | invalidCapacity
  deriving DecidableEq, Repr

/-- Why a command has no meaning. -/
inductive Refusal where
  /-- An arm of `exec` whose command is not modelled yet; no arm is. Safe: nothing is claimed of it. -/
  | notModelled (mnemonic : String)
  deriving DecidableEq, Repr

/-- The state right after reset of a block built with `b` (R161): slots, cursors and counter 0. -/
def State.resetOf (b : Build) : State :=
  { build := b, storage := [], wc := 0, rc := 0, pos := 0, port := [], responses := [] }

/-- The state after reset of the build the model names (log entry 1). -/
def State.reset : State := State.resetOf Config.resetBuild

end Sys2Proof.Machine
end

