-- ==== Sys2Proof/Machine/Ops.lean ====
section
/-! DEFINITION. The shared operations: masking, slot access, responding, raising a fault, reset and construction. -/

namespace Sys2Proof.Machine

/-- `x & MASK` for an integer `x` of any sign: the mathematical `x mod CAP`, in [0, CAP) (R6, R9). -/
def maskInt (b : Build) (x : Int) : Nat := (x % (b.cap : Int)).toNat

/-- `x & MASK` for an `x` that is not negative (R6, R9); `maskInt` of it is the same number. -/
def mask (b : Build) (x : Nat) : Nat := x % b.cap

/-- `S[i]` (R10): the slot's bit, 0 where nothing was written since reset (R50). -/
def Memory.read : Memory → Nat → Bit
  | [], _ => 0#1
  | (j, c) :: rest, i => if i = j then c else Memory.read rest i

/-- `S[i] <- b` (R10), keeping the canonical form. -/
def Memory.write : Memory → Nat → Bit → Memory
  | [], i, b => if b = 0#1 then [] else [(i, b)]
  | (j, c) :: rest, i, b =>
    if i < j then (if b = 0#1 then (j, c) :: rest else (i, b) :: (j, c) :: rest)
    else if i = j then (if b = 0#1 then rest else (i, b) :: rest)
    else (j, c) :: Memory.write rest i b

/-- The bit of slot `i` in a state. -/
def State.slot (s : State) (i : Nat) : Bit := s.storage.read i

/-- The first `k` slot writes of INJECT_BYTE: bit `7 - i` of the byte to slot `(WC + i) & MASK`, `i` ascending, each
before the next (R43, R80). -/
def storeBits (b : Build) (wc : Nat) (value : Byte) : Nat → Memory → Memory
  | 0, m => m
  | k + 1, m =>
    (storeBits b wc value k m).write (mask b (wc + k)) (value.extractLsb' (7 - k) 1)

/-- The accumulator of READ_BITS after the first `n` slots from `RC`: 32 bits, shifted left by one and ORed with each
slot in turn, the high bit falling off (R90). -/
def readAccumulator (s : State) : Nat → ReadResult
  | 0 => 0
  | k + 1 => (readAccumulator s k <<< 1) ||| (s.slot (mask s.build (s.rc + k))).zeroExtend 32

/-- A state after one more response was delivered: nothing of the block changes (R25, R66). -/
def State.answered (s : State) (st : Status) (result : Word64) : State :=
  { s with responses := s.responses ++ [⟨st, result⟩] }

/-- `respond(status, result)`: deliver the command's one response (R10, R66). -/
def respond (st : Status) (result : Word64) (s : State) : Host.Outcome State Fault Refusal :=
  .next (s.answered st result)

/-- `raise F(info)`: the whole of taking a fault. `S`, `WC`, `RC` and `POS` stay, the response is `F` with result 0,
`info` is recorded nowhere and the block goes on (R10, R141, R149). There is nothing to return from (R150). -/
def raise (f : Status) (s : State) : Host.Outcome State Fault Refusal := respond f 0 s

/-- The reset input: a new instance with the same parameters, with no response (R160, R161). The inputs still to come and
the responses already delivered are the callers' and stay (log entry 11, DEDUCED). -/
def State.assertReset (s : State) : State :=
  { State.resetOf s.build with port := s.port, responses := s.responses }

/-- The base 2 logarithm, at most `fuel`, of an exact power of two. -/
def exactLog2 (fuel : Nat) (capacity : Int) : Option Nat :=
  (List.range (fuel + 1)).find? fun k => capacity = 2 ^ k

/-- Construction, `new(capacity_bits)` with the mode: the reset state of the build, or the elaboration's refusal with
`InvalidCapacity` in both modes for a capacity that is zero, negative, not a power of two (R7, R143) or above `2 ^ 32`
(R5, D3; log entry 7, DEDUCED). -/
def construct (capacity : Int) (checked : Bool) : Host.Outcome State Fault Refusal :=
  match exactLog2 Config.maxLog2Cap capacity with
  | some k => .next (State.resetOf ⟨Fin.ofNat (Config.maxLog2Cap + 1) k, checked⟩)
  | none => .fault .invalidCapacity

/-- One command after another: the second runs in the state the first leaves (R55). -/
def andThen (o : Host.Outcome State Fault Refusal) (f : State → Host.Outcome State Fault Refusal) :
    Host.Outcome State Fault Refusal :=
  match o with
  | .next s => f s
  | .fault r => .fault r
  | .refused r => .refused r

end Sys2Proof.Machine
end

