-- ==== Sys2Proof/Machine/Operands.lean ====
section
/-! DEFINITION. Operand assembly (spec/30_encoding.md R63): every field unsigned, zero-extended to the width of the
arithmetic that uses it, never scaled by the decoder. -/

namespace Sys2Proof.Machine

/-- READ_BITS' bit count as a number, 0 to 63. -/
def widthOperand (n : BitVec 6) : Nat := n.toNat

/-- REWIND_BITS' bit count, `zext_64(count)` (R120). -/
def bitCountOperand (count : BitVec 60) : Word64 := count.zeroExtend 64

/-- REWIND_BYTES' bit count, `8 * zext_64(count)`, exact: below `2 ^ 63` (R121). -/
def byteCountOperand (count : BitVec 60) : Word64 := 8 * count.zeroExtend 64

end Sys2Proof.Machine
end

