-- ==== Sys2Proof/Machine/Flags.lean ====
section
/-! DEFINITION. The block has no flags (spec/10_state.md R25). What a command reports is its response's status: the
fault conditions (spec/60_exceptions.md R142) and the status codes (spec/30_encoding.md R67). -/

namespace Sys2Proof.Machine

/-- READ_WIDTH_OUT_OF_RANGE: checked mode and `n > 32` (R145). -/
def readWidthOutOfRange (b : Build) (n : Nat) : Bool := b.checked && decide (Config.resultWidth < n)

/-- REWIND_UNDERFLOW: checked mode and more bits than POS, compared unsigned on 64 bits (R146). -/
def rewindUnderflow (s : State) (bits : Word64) : Bool := s.build.checked && decide (s.pos < bits)

/-- The 4-bit code of a status (R67). -/
def Status.code : Status → BitVec 4
  | .ok => 0x0
  | .invalidCommand => 0x1
  | .readWidthOutOfRange => 0x2
  | .rewindUnderflow => 0x3
  | .invalidCapacity => 0x4

/-- The status a 4-bit code names; the codes 0x5 to 0xF are reserved (R67). -/
def Status.ofCode (c : BitVec 4) : Option Status :=
  match c.toNat with
  | 0x0 => some .ok
  | 0x1 => some .invalidCommand
  | 0x2 => some .readWidthOutOfRange
  | 0x3 => some .rewindUnderflow
  | 0x4 => some .invalidCapacity
  | _ => none

/-- POSITION's result read as a two's-complement number, the source's possibly negative count (R116). -/
def signedPosition (result : Word64) : Int := result.toInt

end Sys2Proof.Machine
end

