-- ==== Sys2Proof/Machine/Inject.lean ====
section
/-! DEFINITION. The producer command (spec/40_inject.md). -/

namespace Sys2Proof.Machine

/-- What injecting a byte does to the slots and the write cursor: eight ordered slot writes, then
`WC <- (WC + 8) & MASK` (R80, R81). -/
def State.inject (s : State) (value : Byte) : State :=
  { s with storage := storeBits s.build s.wc value 8 s.storage, wc := mask s.build (s.wc + 8) }

/-- INJECT_BYTE (R80); no check in either mode (R82). -/
def execInjectByte (value : Byte) (s : State) : Host.Outcome State Fault Refusal :=
  respond .ok 0 (s.inject value)

end Sys2Proof.Machine
end

