-- ==== Sys2Proof/Machine/Position.lean ====
section
/-! DEFINITION. The query command (spec/42_position.md). -/

namespace Sys2Proof.Machine

/-- POSITION (R110): the counter, unchanged, with no side effect. -/
def execPosition (s : State) : Host.Outcome State Fault Refusal := respond .ok s.pos s

end Sys2Proof.Machine
end

