-- ==== Sys2Proof/Machine/Read.lean ====
section
/-! DEFINITION. The consumer read commands (spec/41_read.md). -/

namespace Sys2Proof.Machine

/-- What a read of `n` bits does to the registers: `RC <- (RC + n) & MASK`, `POS <- (POS + n) mod^64` (R90, R93). -/
def State.consume (s : State) (n : Nat) : State :=
  { s with rc := mask s.build (s.rc + n), pos := s.pos + BitVec.ofNat 64 n }

/-- READ_BITS (R90); for `n` from 33 to 63 in baseline mode the last 32 bits read (R94; log entry 5, DESIGN CHOICE). -/
def execReadBits (n : BitVec 6) (s : State) : Host.Outcome State Fault Refusal :=
  if readWidthOutOfRange s.build (widthOperand n) then raise .readWidthOutOfRange s
  else respond .ok ((readAccumulator s (widthOperand n)).zeroExtend 64) (s.consume (widthOperand n))

/-- READ_ONE_BIT (R93): the slot at the cursor, which is below CAP (R24), without masking. -/
def execReadOneBit (s : State) : Host.Outcome State Fault Refusal :=
  respond .ok ((s.slot s.rc).zeroExtend 64) (s.consume 1)

/-- The fast path an implementation may use for a span that does not cross the physical end of `S` (R92): slots
`RC .. RC+n-1` with no masking. `exec` does not use it. -/
def fastAccumulator (s : State) : Nat → ReadResult
  | 0 => 0
  | k + 1 => (fastAccumulator s k <<< 1) ||| (s.slot (s.rc + k)).zeroExtend 32

end Sys2Proof.Machine
end

