-- ==== Sys2Proof/Machine/Rewind.lean ====
section
/-! DEFINITION. The consumer rewind commands (spec/43_rewind.md). -/

namespace Sys2Proof.Machine

/-- What a rewind by `bits` does to the registers: the mathematical modulo for the cursor, no clamp for the counter
(R120, R123). No slot is restored (R54). -/
def State.unconsume (s : State) (bits : Word64) : State :=
  { s with rc := maskInt s.build ((s.rc : Int) - bits.toNat), pos := s.pos - bits }

/-- `rewind(bits)`, the operation both rewind commands share (R120). -/
def rewind (bits : Word64) (s : State) : Host.Outcome State Fault Refusal :=
  if rewindUnderflow s bits then raise .rewindUnderflow s
  else respond .ok 0 (s.unconsume bits)

/-- REWIND_BITS (R120). -/
def execRewindBits (count : BitVec 60) (s : State) : Host.Outcome State Fault Refusal :=
  rewind (bitCountOperand count) s

/-- REWIND_BYTES (R121). -/
def execRewindBytes (count : BitVec 60) (s : State) : Host.Outcome State Fault Refusal :=
  rewind (byteCountOperand count) s

end Sys2Proof.Machine
end

