-- ==== Sys2Proof/Machine/Dispatch.lean ====
section
/-! DEFINITION. One arm per command. -/

namespace Sys2Proof.Machine

def exec (i : Instr) (s : State) : Host.Outcome State Fault Refusal :=
  match i with
  | .injectByte value => Sys2Proof.Machine.execInjectByte value s
  | .readBits n => Sys2Proof.Machine.execReadBits n s
  | .readOneBit => Sys2Proof.Machine.execReadOneBit s
  | .position => Sys2Proof.Machine.execPosition s
  | .rewindBits count => Sys2Proof.Machine.execRewindBits count s
  | .rewindBytes count => Sys2Proof.Machine.execRewindBytes count s

end Sys2Proof.Machine
end

