-- ==== Sys2Proof/Machine/Port.lean ====
section
/-! DEFINITION. What the block does with one input of its port (spec/30_encoding.md R60, spec/60_exceptions.md R148). -/

namespace Sys2Proof.Machine

/-- A command word: decoding comes first; an illegal word is answered INVALID_COMMAND in both modes and no other check
is made (R65, R144, R148). -/
def runWord (cw : CommandWord) (s : State) : Host.Outcome State Fault Refusal :=
  match decode cw with
  | .command i => exec i s
  | .illegal _ => raise .invalidCommand s

/-- One input: a command is executed completely, a reset assertion resets (R60, R160). -/
def accept (input : PortInput) (s : State) : Host.Outcome State Fault Refusal :=
  match input with
  | .command cw => runWord cw s
  | .reset => .next s.assertReset

/-- Nothing is presented: nothing happens, and the state persists (R151, R157; log entry 4, DEDUCED). -/
def idle (s : State) : Host.Outcome State Fault Refusal := .next s

end Sys2Proof.Machine
end

