-- ==== Sys2Proof/Machine/Step.lean ====
section
/-! DEFINITION. One step: the block accepts the first input presented and handles it completely (R55, R60). -/

namespace Sys2Proof.Machine

def step (s : State) : Host.Outcome State Fault Refusal :=
  match s.port with
  | [] => idle s
  | input :: rest => accept input { s with port := rest }

/-- The state with one more command word presented, ahead of the others, so that the next step runs exactly it: the
block fetches nothing, a caller presents the word (R20, R52; log entry 2). -/
def State.withFetchWord (s : State) (nbits w : Nat) : State :=
  { s with port := .command (tableWord nbits w) :: s.port }

end Sys2Proof.Machine
end

