-- ==== Sys2Proof/Machine/Run.lean ====
section
/-! DEFINITION. Runs (spec/70_reset_and_hazards.md R176): a finite sequence of inputs after reset, and its outcome. -/

namespace Sys2Proof.Machine

/-- The callers present inputs, behind those already presented (R55). -/
def State.present (s : State) (inputs : List PortInput) : State := { s with port := s.port ++ inputs }

/-- `k` steps, one after another. -/
def steps : Nat → State → Host.Outcome State Fault Refusal
  | 0, s => .next s
  | k + 1, s => andThen (step s) (steps k)

/-- A run of a block built with `b`: one step for each input presented after reset. -/
def run (b : Build) (inputs : List PortInput) : Host.Outcome State Fault Refusal :=
  steps inputs.length ((State.resetOf b).present inputs)

/-- The commands of a list, one after another, as already decoded. -/
def execAll : List Instr → State → Host.Outcome State Fault Refusal
  | [], s => .next s
  | i :: is, s => andThen (exec i s) (execAll is)

/-- The observable outcome of a run: the responses and the final `(S, WC, RC, POS)` (R176). -/
structure Observation where
  responses : List Response
  storage : Memory
  wc : Nat
  rc : Nat
  pos : Word64
  deriving DecidableEq, Repr

def State.observe (s : State) : Observation := ⟨s.responses, s.storage, s.wc, s.rc, s.pos⟩

end Sys2Proof.Machine
end

