-- ==== Sys2Proof/Safety.lean ====
section
/-! DEFINITION. What claims are stated in: the invariant of the block's states, the position law's bit counts, and a
caller that keeps its duties (spec/70_reset_and_hazards.md R171, R172) with the ideal stream such a caller sees. -/

namespace Sys2Proof

/-- The mnemonic of a command (R64). -/
def Instr.mnemonic : Instr → String
  | .injectByte _ => "INJECT_BYTE"
  | .readBits _ => "READ_BITS"
  | .readOneBit => "READ_ONE_BIT"
  | .position => "POSITION"
  | .rewindBits _ => "REWIND_BITS"
  | .rewindBytes _ => "REWIND_BYTES"

/-- How many bits a command reads or rewinds (R111). -/
def Instr.bitCount : Instr → Nat
  | .injectByte _ => 0
  | .readBits n => n.toNat
  | .readOneBit => 1
  | .position => 0
  | .rewindBits count => count.toNat
  | .rewindBytes count => 8 * count.toNat

/-- A command that reads and completes in the build: READ_ONE_BIT, or READ_BITS of a width that is no fault. -/
def Instr.completesRead (b : Build) : Instr → Bool
  | .readBits n => !b.checked || decide (n.toNat ≤ 32)
  | .readOneBit => true
  | _ => false

namespace Machine

/-- What holds of every state a run reaches. -/
structure State.Inv (s : State) : Prop where
  /-- The slots are in canonical form. -/
  storage_wf : s.storage.wf
  /-- Every listed slot exists (R22, R40). -/
  storage_lt : ∀ c ∈ s.storage, c.1 < s.build.cap
  /-- `WC` is in [0, CAP) (R23). -/
  wc_lt : s.wc < s.build.cap
  /-- `RC` is in [0, CAP) (R24). -/
  rc_lt : s.rc < s.build.cap
  /-- `WC` is a multiple of 8 when `CAP >= 8` (R29). -/
  wc_aligned : 8 ≤ s.build.cap → s.wc % 8 = 0
  /-- `WC` is 0 when `CAP < 8` (R29). -/
  wc_small : s.build.cap < 8 → s.wc = 0

/-- The same state in a build of the other or the same mode. -/
def State.withChecked (s : State) (c : Bool) : State := { s with build := { s.build with checked := c } }

/-- The bits of a byte as they go into the stream, most significant first (R43). -/
def byteBits (v : Byte) : List Bit := (List.range 8).map fun i => BitVec.ofBool (v.getLsbD (7 - i))

/-- The number a field of bits writes, the first bit the most significant (R44). -/
def fieldValue (bits : List Bit) : Nat := bits.foldl (fun acc b => 2 * acc + b.toNat) 0

/-- One-bit results assembled MSB first into a 32-bit number (R92). -/
def assembleBits (rs : List Response) : BitVec 32 :=
  rs.foldl (fun acc r => (acc <<< 1) ||| r.result.truncate 32) 0

/-- What a caller that keeps its duties sees: the whole stream injected since reset, and a position in it. -/
structure Ideal where
  stream : List Bit
  position : Nat
  deriving DecidableEq, Repr

/-- The next `n` bits of the stream. -/
def Ideal.field (a : Ideal) (n : Nat) : List Bit := (a.stream.drop a.position).take n

/-- The commands that keep the caller's duties (R171): the producer stays at most `CAP` bits ahead of the position
(after a rewind too: the window of R172), reads stay within what was injected and within 32 bits, rewinds stay at or
after the stream's start. The position stays below `2 ^ 64`, so the counter has not wrapped. -/
def Ideal.dutiful (a : Ideal) (cap : Nat) : Instr → Prop
  | .injectByte _ => a.stream.length + 8 ≤ a.position + cap
  | .readBits n => n.toNat ≤ 32 ∧ a.position + n.toNat ≤ a.stream.length ∧ a.position + n.toNat < 2 ^ 64
  | .readOneBit => a.position + 1 ≤ a.stream.length ∧ a.position + 1 < 2 ^ 64
  | .position => True
  | .rewindBits count => count.toNat ≤ a.position ∧ a.stream.length + count.toNat ≤ a.position + cap
  | .rewindBytes count => 8 * count.toNat ≤ a.position ∧ a.stream.length + 8 * count.toNat ≤ a.position + cap

/-- The ideal stream after a command. -/
def Ideal.after (a : Ideal) : Instr → Ideal
  | .injectByte value => { a with stream := a.stream ++ byteBits value }
  | .readBits n => { a with position := a.position + n.toNat }
  | .readOneBit => { a with position := a.position + 1 }
  | .position => a
  | .rewindBits count => { a with position := a.position - count.toNat }
  | .rewindBytes count => { a with position := a.position - 8 * count.toNat }

/-- The result of a command on the ideal stream. -/
def Ideal.result (a : Ideal) : Instr → Word64
  | .injectByte _ => 0
  | .readBits n => BitVec.ofNat 64 (fieldValue (a.field n.toNat))
  | .readOneBit => BitVec.ofNat 64 (fieldValue (a.field 1))
  | .position => BitVec.ofNat 64 a.position
  | .rewindBits _ => 0
  | .rewindBytes _ => 0

/-- A state of the block stands for an ideal stream: the cursors and the counter are the stream's length and position,
and the slots hold the last `CAP` bits of the stream. -/
structure Refines (s : State) (a : Ideal) : Prop where
  storage_wf : s.storage.wf
  wc_eq : s.wc = a.stream.length % s.build.cap
  rc_eq : s.rc = a.position % s.build.cap
  pos_eq : s.pos = BitVec.ofNat 64 a.position
  position_lt : a.position < 2 ^ 64
  position_le : a.position ≤ a.stream.length
  window : a.stream.length ≤ a.position + s.build.cap
  slots : ∀ k (h : k < a.stream.length), a.stream.length ≤ k + s.build.cap →
    s.slot (k % s.build.cap) = a.stream[k]

end Machine

end Sys2Proof
end

