-- ==== Sys2Proof/Certificates/Slice0/Obligations.lean ====
section
/-! DEFINITION. The statements about the block. Each holds in both modes and for every build unless it says otherwise.
`s.answered st r` is `s` with one more response delivered and nothing else changed. -/

open Sys2Proof Sys2Proof.Machine

/-! ## Encoding -/

/-- Words written out from the spec's encodings (R62, R64, the examples of R70) decode to the commands they stand for,
and words outside the map to illegal (R65). -/
def Obligations.SpecWordsDecode : Prop :=
  decode 0x10000000000000B2#64 = .command (.injectByte 0xB2#8) ∧
  decode 0x2000000000000003#64 = .command (.readBits 3#6) ∧
  decode 0x200000000000003F#64 = .command (.readBits 63#6) ∧
  decode 0x3000000000000000#64 = .command .readOneBit ∧
  decode 0x4000000000000000#64 = .command .position ∧
  decode 0x5000000000000004#64 = .command (.rewindBits 4#60) ∧
  decode 0x6000000000000001#64 = .command (.rewindBytes 1#60) ∧
  decode 0x0000000000000000#64 = .illegal .opcode ∧
  decode 0xF000000000000000#64 = .illegal .opcode ∧
  decode 0x1000000000000100#64 = .illegal .reservedBit ∧
  decode 0x2000000000000040#64 = .illegal .reservedBit ∧
  decode 0x3000000000000001#64 = .illegal .reservedBit

/-- Decoding the word of any command, with every operand its field admits, gives that command back (R62, R63, R69). -/
def Obligations.DecodeOfEncodeIsTheCommand : Prop :=
  ∀ i : Instr, decode (encode i) = .command i

/-- A command has one word: what decodes to it is its encoding (R62, R65). -/
def Obligations.DecodedWordIsItsEncoding : Prop :=
  ∀ (cw : CommandWord) (i : Instr), decode cw = .command i → encode i = cw

/-- The decoder of R69 and the match/mask table of R64 read every word alike: a row admits a word exactly when the word
decodes to a command of the row's mnemonic. -/
def Obligations.DecoderAgreesWithOpcodeTable : Prop :=
  ∀ (cw : CommandWord) (row : OpcodeRow), row ∈ opcodeTable →
    (row.admits cw = true ↔ ∃ i, decode cw = .command i ∧ i.mnemonic = row.mnemonic)

/-- No word is admitted by two rows of the table: "The match/mask pairs of rule R64 are pairwise disjoint" (R69). -/
def Obligations.OpcodeRowsAreDisjoint : Prop :=
  opcodeTable.Pairwise fun a b => ∀ cw : CommandWord, ¬(a.admits cw = true ∧ b.admits cw = true)

/-- R65 and R144: which words are illegal (an opcode 0x0 or 0x7 to 0xF, or a reserved bit set), and that a step on one,
in either mode, delivers INVALID_COMMAND with result 0 and changes no state. -/
def Obligations.IllegalWordIsRefused : Prop :=
  (∀ cw : CommandWord, (∃ why, decode cw = .illegal why) ↔
    (cw.toNat / 2 ^ 60 = 0 ∨ 7 ≤ cw.toNat / 2 ^ 60 ∨
      (cw.toNat / 2 ^ 60 = 1 ∧ 2 ^ 8 ≤ cw.toNat % 2 ^ 60) ∨
      (cw.toNat / 2 ^ 60 = 2 ∧ 2 ^ 6 ≤ cw.toNat % 2 ^ 60) ∨
      (cw.toNat / 2 ^ 60 = 3 ∧ cw.toNat % 2 ^ 60 ≠ 0) ∨
      (cw.toNat / 2 ^ 60 = 4 ∧ cw.toNat % 2 ^ 60 ≠ 0))) ∧
  ∀ (s : State) (cw : CommandWord) (rest : List PortInput) (why : IllegalWord),
    s.port = .command cw :: rest → decode cw = .illegal why →
    step s = .next (State.answered { s with port := rest } .invalidCommand 0)

/-- The assembler's table (R70): a core line whose operand is in range has the word of the encoding tables (R62) and
decodes to the command it names; PEEK_BITS, READ_BYTE and NOP assemble to their expansions (R71); a line with an
operand out of range is an assembly error. The range of PEEK_BITS' operand is the model's (log entry 13). -/
def Obligations.AssemblerAgreesWithEncoding : Prop :=
  (∀ c : AsmCore, c.inRange = true →
    assemble (.core c) = some [encode c.instr] ∧ decode c.word = .command c.instr) ∧
  (∀ c : AsmCore, c.inRange = false → assemble (.core c) = none) ∧
  assemble .readByte = some [encode (.readBits 8#6)] ∧
  assemble .nop = some [encode .position] ∧
  (∀ n : Nat, n ≤ 63 → assemble (.peekBits n) =
    some [encode (.readBits (BitVec.ofNat 6 n)), encode (.rewindBits (BitVec.ofNat 60 n))]) ∧
  ∀ n : Nat, 63 < n → assemble (.peekBits n) = none

/-! ## The step -/

/-- When the word presented decodes to a command, the step is that command's meaning in the state from which the word
has been taken off the port (R60). -/
def Obligations.StepRunsDecodedCommand : Prop :=
  ∀ (s : State) (cw : CommandWord) (rest : List PortInput) (i : Instr),
    s.port = .command cw :: rest → decode cw = .command i → step s = exec i { s with port := rest }

/-- After reset every slot, both cursors and the counter are 0 and the mode is as built (R161); this holds of the reset
state of every build, and of the state after a reset assertion in any state. The assertion produces no response (R160);
that the responses already delivered stay as they are is the model's inference (log entry 11, DEDUCED). -/
def Obligations.ResetClearsAllButTheBuild : Prop :=
  (∀ (b : Build) (i : Nat), (State.resetOf b).slot i = 0#1 ∧ (State.resetOf b).wc = 0 ∧
    (State.resetOf b).rc = 0 ∧ (State.resetOf b).pos = 0#64 ∧ (State.resetOf b).build = b) ∧
  ∀ (s : State) (rest : List PortInput), s.port = .reset :: rest →
    ∃ t, step s = .next t ∧ (∀ i, t.slot i = 0#1) ∧ t.wc = 0 ∧ t.rc = 0 ∧ t.pos = 0#64 ∧ t.build = s.build ∧
      t.responses = s.responses

/-- The model's choices around the port (log entries 2, 4 and 11): a step takes exactly the first input presented, and
with none presented nothing happens. -/
def Obligations.StepTakesOneInput : Prop :=
  (∀ s t : State, step s = .next t → t.port = s.port.tail) ∧
  ∀ s : State, s.port = [] → step s = .next s

/-- Every step of every state answers a next state: no command, legal or not, stops the block or hangs it (R140, R157,
R171). -/
def Obligations.EveryStepAnswersNextState : Prop :=
  ∀ s : State, ∃ t, step s = .next t

/-- A command word is answered by exactly one response, appended to those delivered before; its result is 0 when its
status is not OK, and its status is never INVALID_CAPACITY (R60, R66, R67, R68, R143). -/
def Obligations.OneResponsePerCommand : Prop :=
  ∀ (s : State) (cw : CommandWord) (rest : List PortInput), s.port = .command cw :: rest →
    ∃ t r, step s = .next t ∧ t.responses = s.responses ++ [r] ∧ (r.status ≠ .ok → r.result = 0#64) ∧
      r.status ≠ .invalidCapacity

/-- R141: a command word that is answered with a fault changes nothing but the response delivered, and a word that
checked mode answers OK does the same in baseline mode. -/
def Obligations.FaultsArePreciseAndModesAgree : Prop :=
  (∀ (cw : CommandWord) (s t : State) (r : Response), runWord cw s = .next t → t.responses = s.responses ++ [r] →
    r.status ≠ .ok → t = s.answered r.status 0) ∧
  ∀ (cw : CommandWord) (s t : State) (r : Response), runWord cw (s.withChecked true) = .next t →
    t.responses = s.responses ++ [r] → r.status = .ok →
    runWord cw (s.withChecked false) = .next (t.withChecked false)

/-- A run of any finite list of inputs ends: after one step for each input every input has been taken, and each command
word has had its one response (R60, R175, R176). -/
def Obligations.EveryRunEnds : Prop :=
  ∀ (b : Build) (inputs : List PortInput), ∃ t, run b inputs = .next t ∧ t.port = [] ∧ t.build = b ∧
    t.responses.length = (inputs.filter fun p => p ≠ .reset).length

/-! ## INJECT_BYTE -/

/-- R80: the word of INJECT_BYTE, and its effect from any memory in canonical form. Each of the eight slots holds the
bit of the last of the eight writes that reached it, most significant bit first; every other slot reads as before; the
write cursor advances by 8 modulo CAP; `RC`, `POS`, the build and the port are untouched; the response is OK with 0. -/
def Obligations.InjectByteEffect : Prop :=
  (∀ v : Byte, decode (0x1000000000000000#64 ||| v.zeroExtend 64) = .command (.injectByte v)) ∧
  ∀ (v : Byte) (s : State), s.storage.wf →
    ∃ t, exec (.injectByte v) s = .next t ∧
      (∀ i : Nat, i < 8 → (∀ k : Nat, i < k → k < 8 → mask s.build (s.wc + k) ≠ mask s.build (s.wc + i)) →
        t.slot (mask s.build (s.wc + i)) = BitVec.ofBool (v.getLsbD (7 - i))) ∧
      (∀ j : Nat, (∀ i : Nat, i < 8 → j ≠ mask s.build (s.wc + i)) → t.slot j = s.slot j) ∧
      t.wc = (s.wc + 8) % s.build.cap ∧ t.rc = s.rc ∧ t.pos = s.pos ∧ t.build = s.build ∧ t.port = s.port ∧
      t.responses = s.responses ++ [⟨.ok, 0#64⟩]

/-- R81: with CAP below 8, from a state that meets the invariant, the slots end as the low CAP bits of the byte in
MSB-first order and `WC` stays 0. -/
def Obligations.InjectByteInSmallCapacity : Prop :=
  ∀ (v : Byte) (s : State), s.Inv → s.build.cap < 8 →
    ∃ t, exec (.injectByte v) s = .next t ∧ t.wc = 0 ∧
      ∀ j < s.build.cap, t.slot j = BitVec.ofBool (v.getLsbD (s.build.cap - 1 - j))

/-- With CAP at least 8 the eight slots are distinct, so from a state that meets the invariant every slot
`WC .. WC+7` holds its bit of the byte, and the write does not cross the physical end of the slots (R29, R43). -/
def Obligations.InjectByteStaysInsideTheBuffer : Prop :=
  ∀ (v : Byte) (s : State), s.Inv → 8 ≤ s.build.cap →
    s.wc + 8 ≤ s.build.cap ∧
    ∃ t, exec (.injectByte v) s = .next t ∧
      (∀ i : Nat, i < 8 → t.slot (s.wc + i) = BitVec.ofBool (v.getLsbD (7 - i))) ∧
      t.wc = if s.wc + 8 = s.build.cap then 0 else s.wc + 8

/-! ## READ_BITS and READ_ONE_BIT -/

/-- READ_BITS (R90, R91, R94, R145): its word; in checked mode a width above 32 is the fault with no state change;
otherwise the command consumes `n` bits and returns the MSB-first sum of the bits read, modulo `2 ^ 32`. For `n` from 33
to 63 in baseline mode that is R94's value, which the spec lets a model draw instead: taking it is the model's choice
(log entry 5). -/
def Obligations.ReadBitsEffect : Prop :=
  (∀ n : BitVec 6, decode (0x2000000000000000#64 ||| n.zeroExtend 64) = .command (.readBits n)) ∧
  (∀ (n : BitVec 6) (s : State), ¬(s.build.checked = true ∧ 32 < n.toNat) →
    exec (.readBits n) s = .next (State.answered
      { s with rc := (s.rc + n.toNat) % s.build.cap, pos := s.pos + BitVec.ofNat 64 n.toNat } .ok
      (BitVec.ofNat 64 ((Finset.sum (Finset.range n.toNat) fun i =>
        (s.slot ((s.rc + i) % s.build.cap)).toNat * 2 ^ (n.toNat - 1 - i)) % 2 ^ 32)))) ∧
  ∀ (n : BitVec 6) (s : State), s.build.checked = true → 32 < n.toNat →
    exec (.readBits n) s = .next (s.answered .readWidthOutOfRange 0)

/-- R95: READ_BITS of width 0 returns 0 and changes no state in either mode; the premise is the range of `RC`. -/
def Obligations.ReadBitsOfWidthZeroChangesNothing : Prop :=
  ∀ s : State, s.rc < s.build.cap → exec (.readBits 0#6) s = .next (s.answered .ok 0)

/-- R93: the word of READ_ONE_BIT, its effect in every state, and that it is READ_BITS of width 1; the premise is the
range of `RC`. -/
def Obligations.ReadOneBitEffect : Prop :=
  (∀ cw : CommandWord, decode cw = .command .readOneBit ↔ cw = 0x3000000000000000#64) ∧
  (∀ s : State, exec .readOneBit s = .next (State.answered
    { s with rc := (s.rc + 1) % s.build.cap, pos := s.pos + 1#64 } .ok ((s.slot s.rc).zeroExtend 64))) ∧
  ∀ s : State, s.rc < s.build.cap → exec .readOneBit s = exec (.readBits 1#6) s

/-- R92: where the span does not cross the physical end the fast path reads what the masked path reads; and READ_BITS
of `n` bits equals, in result and end state, `n` READ_ONE_BIT commands whose bits are assembled MSB first. For `n` from
33 to 63 in baseline mode the result compared is R94's value, which the spec lets a model draw instead: taking it is the
model's choice (log entry 5). -/
def Obligations.ReadPathsAgree : Prop :=
  (∀ (s : State) (n : Nat), s.rc + n ≤ s.build.cap → fastAccumulator s n = readAccumulator s n) ∧
  ∀ (s : State) (n : BitVec 6), s.rc < s.build.cap → ¬(s.build.checked = true ∧ 32 < n.toNat) →
    ∃ (u : State) (rs : List Response),
      execAll (List.replicate n.toNat .readOneBit) s = .next { u with responses := s.responses ++ rs } ∧
      rs.length = n.toNat ∧ (∀ r ∈ rs, r.status = .ok) ∧
      exec (.readBits n) s = .next
        { u with responses := s.responses ++ [⟨.ok, (assembleBits rs).zeroExtend 64⟩] }

/-! ## POSITION -/

/-- R110: the word of POSITION, and that it returns the counter and changes no state, in every state. -/
def Obligations.PositionReturnsTheCounter : Prop :=
  (∀ cw : CommandWord, decode cw = .command .position ↔ cw = 0x4000000000000000#64) ∧
  ∀ s : State, exec .position s = .next (s.answered .ok s.pos)

/-- R111, the position law: a command that completes adds its bit count (reads) or subtracts it (rewinds), modulo
`2 ^ 64`, and nothing else moves the counter; the change is nonzero exactly when the bit count is. -/
def Obligations.PositionLaw : Prop :=
  (∀ (i : Instr) (s : State), ∃ t r, exec i s = .next t ∧ t.responses = s.responses ++ [r] ∧
    (r.status ≠ .ok → t.pos = s.pos) ∧
    (r.status = .ok →
      t.pos = (match i with
        | .injectByte _ => s.pos
        | .readBits n => s.pos + BitVec.ofNat 64 n.toNat
        | .readOneBit => s.pos + 1#64
        | .position => s.pos
        | .rewindBits c => s.pos - BitVec.ofNat 64 c.toNat
        | .rewindBytes c => s.pos - BitVec.ofNat 64 (8 * c.toNat)) ∧
      (t.pos = s.pos ↔ i.bitCount = 0))) ∧
  ∀ (cw : CommandWord) (why : IllegalWord) (s : State), decode cw = .illegal why →
    ∃ t, runWord cw s = .next t ∧ t.pos = s.pos

/-! ## REWIND_BITS and REWIND_BYTES -/

/-- R120: the word of REWIND_BITS; where there is no underflow (or in baseline mode) the read cursor moves back by the
count, by the mathematical modulo, the counter decreases by it modulo `2 ^ 64`, and nothing else changes; in checked
mode a count above POS is the fault with no state change. -/
def Obligations.RewindBitsEffect : Prop :=
  (∀ c : BitVec 60, decode (0x5000000000000000#64 ||| c.zeroExtend 64) = .command (.rewindBits c)) ∧
  (∀ (c : BitVec 60) (s : State), ¬(s.build.checked = true ∧ s.pos.toNat < c.toNat) →
    exec (.rewindBits c) s = .next (State.answered
      { s with rc := (((s.rc : Int) - c.toNat) % s.build.cap).toNat, pos := s.pos - BitVec.ofNat 64 c.toNat }
      .ok 0)) ∧
  ∀ (c : BitVec 60) (s : State), s.build.checked = true → s.pos.toNat < c.toNat →
    exec (.rewindBits c) s = .next (s.answered .rewindUnderflow 0)

/-- R121: the word of REWIND_BYTES, and the same rewind by eight times the count, computed without overflow. -/
def Obligations.RewindBytesEffect : Prop :=
  (∀ c : BitVec 60, decode (0x6000000000000000#64 ||| c.zeroExtend 64) = .command (.rewindBytes c)) ∧
  (∀ (c : BitVec 60) (s : State), ¬(s.build.checked = true ∧ s.pos.toNat < 8 * c.toNat) →
    exec (.rewindBytes c) s = .next (State.answered
      { s with rc := (((s.rc : Int) - 8 * c.toNat) % s.build.cap).toNat,
               pos := s.pos - BitVec.ofNat 64 (8 * c.toNat) } .ok 0)) ∧
  ∀ (c : BitVec 60) (s : State), s.build.checked = true → s.pos.toNat < 8 * c.toNat →
    exec (.rewindBytes c) s = .next (s.answered .rewindUnderflow 0)

/-- R146: in checked mode a rewind of exactly POS bits is allowed and leaves POS 0, and any rewind that completes
leaves the true difference, never a borrow; REWIND_UNDERFLOW is answered only in checked mode, only by the rewinds and
only above POS; in baseline mode every rewind completes. -/
def Obligations.CheckedRewindNeverBorrows : Prop :=
  (∀ (i : Instr) (s : State), (∃ c, i = .rewindBits c ∨ i = .rewindBytes c) → s.build.checked = true →
    ∃ t r, exec i s = .next t ∧ t.responses = s.responses ++ [r] ∧
      (r.status = .ok ↔ i.bitCount ≤ s.pos.toNat) ∧ (r.status = .rewindUnderflow ↔ s.pos.toNat < i.bitCount) ∧
      (r.status = .ok → t.pos.toNat = s.pos.toNat - i.bitCount)) ∧
  (∀ (i : Instr) (s t : State), exec i s = .next t →
    t.responses = s.responses ++ [⟨.rewindUnderflow, 0#64⟩] →
    s.build.checked = true ∧ s.pos.toNat < i.bitCount ∧ ∃ c, i = .rewindBits c ∨ i = .rewindBytes c) ∧
  ∀ (i : Instr) (s : State), (∃ c, i = .rewindBits c ∨ i = .rewindBytes c) → s.build.checked = false →
    ∃ t, exec i s = .next t ∧ t.responses = s.responses ++ [⟨.ok, 0#64⟩]

/-- R123: in baseline mode a rewind past the start completes; the cursor is the mathematical modulo, and the counter's
signed reading is the true difference, which is negative; no slot is touched. -/
def Obligations.BaselineRewindPastTheStart : Prop :=
  ∀ (i : Instr) (s : State), (∃ c, i = .rewindBits c ∨ i = .rewindBytes c) → s.build.checked = false →
    s.pos.toNat < i.bitCount →
    ∃ t, exec i s = .next t ∧ t.rc = (((s.rc : Int) - i.bitCount) % s.build.cap).toNat ∧
      t.pos.toNat = 2 ^ 64 + s.pos.toNat - i.bitCount ∧
      signedPosition t.pos = (s.pos.toNat : Int) - i.bitCount ∧ signedPosition t.pos < 0 ∧
      t.storage = s.storage ∧ t.wc = s.wc ∧ t.responses = s.responses ++ [⟨.ok, 0#64⟩]

/-- R122 (b): where the bit count fits its field, REWIND_BYTES and REWIND_BITS of eight times the count give the same
state and the same response. -/
def Obligations.ByteAndBitRewindAgree : Prop :=
  ∀ (m c : BitVec 60) (s : State), c.toNat = 8 * m.toNat → exec (.rewindBytes m) s = exec (.rewindBits c) s

/-- R122 (a): reads that all complete, of `k` bits in total, are undone by REWIND_BITS `k`: `RC` and `POS` are as
before, and the slots and `WC` are untouched throughout. The premises are the range of `RC`, that `k` fits the field,
and in checked mode that the counter has not wrapped. -/
def Obligations.RewindRestoresReads : Prop :=
  ∀ (is : List Instr) (s : State), s.rc < s.build.cap → (∀ i ∈ is, i.completesRead s.build = true) →
    (is.map Instr.bitCount).sum < 2 ^ 60 →
    (s.build.checked = true → s.pos.toNat + (is.map Instr.bitCount).sum < 2 ^ 64) →
    ∃ t rs, execAll (is ++ [.rewindBits (BitVec.ofNat 60 (is.map Instr.bitCount).sum)]) s = .next t ∧
      t = { s with responses := s.responses ++ rs } ∧ rs.length = is.length + 1 ∧ ∀ r ∈ rs, r.status = .ok

/-- R71: PEEK_BITS `n` returns what READ_BITS `n` reads and leaves the block as it was (in checked mode for `n` up to 32
and a counter that does not wrap); NOP leaves it as it was. For `n` up to 32 the result is the field. For `n` from 33 to
63 in baseline mode, which the model's operand range admits (log entry 13, DEDUCED), it is the last 32 bits read, the
model's choice (log entry 5). -/
def Obligations.PeekAndNopLeaveTheBlock : Prop :=
  (∀ (n : BitVec 6) (s : State), s.rc < s.build.cap →
    (s.build.checked = true → n.toNat ≤ 32 ∧ s.pos.toNat + n.toNat < 2 ^ 64) →
    execAll [.readBits n, .rewindBits (BitVec.ofNat 60 n.toNat)] s =
      .next ((s.answered .ok ((readAccumulator s n.toNat).zeroExtend 64)).answered .ok 0)) ∧
  ∀ s : State, exec .position s = .next { s with responses := s.responses ++ [⟨.ok, s.pos⟩] }

/-! ## The whole machine -/

/-- Every step keeps the invariant: the slots stay canonical and within CAP, both cursors stay within CAP, and `WC`
stays a multiple of 8, or 0 when CAP is below 8 (R22, R23, R24, R29). -/
def Obligations.StepKeepsInvariant : Prop :=
  ∀ s t : State, s.Inv → step s = .next t → t.Inv

/-- The reset state of every build meets the invariant. -/
def Obligations.ResetMeetsInvariant : Prop :=
  ∀ b : Build, (State.resetOf b).Inv

/-- The parameters are fixed for the life of the instance (R27), and a run of any number of steps keeps them. -/
def Obligations.BuildNeverChanges : Prop :=
  ∀ (k : Nat) (s t : State), steps k s = .next t → t.build = s.build

/-- "Only INJECT_BYTE writes `S`" (R22) and `WC` (R23): any other command word, legal or not, leaves every slot, the
write cursor, the build and the port as they were. -/
def Obligations.OnlyInjectByteWritesStorage : Prop :=
  ∀ (cw : CommandWord) (s t : State), (∀ v, decode cw ≠ .command (.injectByte v)) → runWord cw s = .next t →
    (∀ j, t.slot j = s.slot j) ∧ t.storage = s.storage ∧ t.wc = s.wc ∧ t.build = s.build ∧ t.port = s.port

/-- The cursors are independent (R28): no consumer command depends on `WC`, and INJECT_BYTE depends on neither `RC` nor
`POS`. -/
def Obligations.CursorsAreIndependent : Prop :=
  (∀ (i : Instr) (s t : State) (w : Nat), (∀ v, i ≠ .injectByte v) → exec i s = .next t →
    exec i { s with wc := w } = .next { t with wc := w }) ∧
  ∀ (v : Byte) (s t : State) (r : Nat) (p : Word64), exec (.injectByte v) s = .next t →
    exec (.injectByte v) { s with rc := r, pos := p } = .next { t with rc := r, pos := p }

/-- A delivered response is output, not state (R25, R30): whatever was delivered before, a step does the same and
appends the same. -/
def Obligations.ResponsesAreNotState : Prop :=
  ∀ (s t : State) (rs : List Response), step s = .next t →
    ∃ new, t.responses = s.responses ++ new ∧
      step { s with responses := rs } = .next { t with responses := rs ++ new }

/-- `x & MASK` (R6, R9): for an integer of any sign it is the one value in [0, CAP) congruent to `x` modulo CAP, and
the two's-complement AND with MASK at any width of at least `LOG2_CAP + 1` bits. -/
def Obligations.MaskIsTwosComplementAnd : Prop :=
  (∀ (b : Build) (x : Int), maskInt b x < b.cap ∧ (b.cap : Int) ∣ x - maskInt b x) ∧
  ∀ (b : Build) (x : Int) (w : Nat), b.log2Cap.val + 1 ≤ w →
    (BitVec.ofInt w x &&& BitVec.ofNat w (b.cap - 1)).toNat = maskInt b x

/-- The status codes of R67: each of the five has its code and is read back from it, and the codes 0x5 to 0xF name no
status. -/
def Obligations.StatusCodes : Prop :=
  Status.code .ok = 0x0#4 ∧ Status.code .invalidCommand = 0x1#4 ∧ Status.code .readWidthOutOfRange = 0x2#4 ∧
  Status.code .rewindUnderflow = 0x3#4 ∧ Status.code .invalidCapacity = 0x4#4 ∧
  (∀ st : Status, Status.ofCode st.code = some st) ∧ ∀ c : BitVec 4, 5 ≤ c.toNat → Status.ofCode c = none

/-! ## Construction -/

/-- R7, R143: a capacity that is not a power of two, or is zero or negative, is not built, in both modes, and the code
never appears on the port. -/
def Obligations.InvalidCapacityIsNotBuilt : Prop :=
  (∀ (capacity : Int) (checked : Bool), (¬∃ k : Nat, capacity = 2 ^ k) →
    construct capacity checked = .fault .invalidCapacity) ∧
  ∀ s t : State, step s = .next t → (∀ r ∈ s.responses, r.status ≠ .invalidCapacity) →
    ∀ r ∈ t.responses, r.status ≠ .invalidCapacity

/-- Construction with a power of two gives the reset state of the build with that capacity and mode for LOG2_CAP up to
32 (R5, R160), and is refused above (decision D3; log entry 7). -/
def Obligations.ConstructionBuildsPowersOfTwo : Prop :=
  ∀ (k : Nat) (checked : Bool),
    (k ≤ 32 → ∃ b, construct (2 ^ k) checked = .next (State.resetOf b) ∧ b.cap = 2 ^ k ∧ b.checked = checked) ∧
    (32 < k → construct (2 ^ k) checked = .fault .invalidCapacity)

/-! ## The stream a dutiful caller sees -/

/-- An injected byte is there at once (R55, R170): INJECT_BYTE, then READ_BITS of 8 bits at the same slots, returns
the byte. -/
def Obligations.InjectedByteIsReadBackAtOnce : Prop :=
  ∀ (v : Byte) (s : State), s.Inv → 8 ≤ s.build.cap → s.rc = s.wc →
    ∃ t, execAll [.injectByte v, .readBits 8#6] s = .next t ∧
      t.responses = s.responses ++ [⟨.ok, 0#64⟩, ⟨.ok, v.zeroExtend 64⟩] ∧ t.rc = t.wc

/-- The round-trip property (E1): bytes injected into an empty buffer (equal cursors), at most CAP / 8 of them, come
back in order when read in 8-bit groups. -/
def Obligations.InjectedBytesComeBackInOrder : Prop :=
  ∀ (bytes : List Byte) (s : State), s.Inv → s.rc = s.wc → 8 * bytes.length ≤ s.build.cap →
    ∃ t, execAll (bytes.map .injectByte ++ List.replicate bytes.length (.readBits 8#6)) s = .next t ∧
      t.responses = s.responses ++ List.replicate bytes.length ⟨.ok, 0#64⟩ ++
        bytes.map fun v => ⟨.ok, v.zeroExtend 64⟩

/-- The circular buffer refines the unbounded stream: as long as a caller keeps its duties (R171, R172), in either mode,
every command completes with the result the ideal stream gives, so no unread or rewindable bit is ever lost. The reset
state of every build stands for the empty stream. -/
def Obligations.DutifulCallerSeesTheIdealStream : Prop :=
  (∀ b : Build, Refines (State.resetOf b) ⟨[], 0⟩) ∧
  ∀ (s : State) (a : Ideal) (i : Instr), Refines s a → a.dutiful s.build.cap i →
    ∃ t, exec i s = .next t ∧ Refines t (a.after i) ∧ t.build = s.build ∧
      t.responses = s.responses ++ [⟨.ok, a.result i⟩]
end

