-- ==== Sys2Proof/Laws/Encoding.lean ====
section
/-! SUPPORT. The words' fields as numbers: a word is its opcode times `2 ^ 60` plus its argument (R61). -/

namespace Sys2Proof

/-- A concatenation as a number. -/
theorem toNat_append_eq {m n : Nat} (x : BitVec m) (y : BitVec n) :
    (x ++ y).toNat = x.toNat * 2 ^ n + y.toNat := by
  rw [BitVec.toNat_append, ← Nat.shiftLeft_add_eq_or_of_lt y.isLt, Nat.shiftLeft_eq]

theorem encode_injectByte_toNat (v : Byte) : (encode (.injectByte v)).toNat = 0x1 * 2 ^ 60 + v.toNat :=
  toNat_append_eq (0x1#4 ++ 0#52) v

theorem encode_readBits_toNat (n : BitVec 6) : (encode (.readBits n)).toNat = 0x2 * 2 ^ 60 + n.toNat :=
  toNat_append_eq (0x2#4 ++ 0#54) n

theorem encode_readOneBit_toNat : (encode .readOneBit).toNat = 0x3 * 2 ^ 60 := by decide

theorem encode_position_toNat : (encode .position).toNat = 0x4 * 2 ^ 60 := by decide

theorem encode_rewindBits_toNat (c : BitVec 60) :
    (encode (.rewindBits c)).toNat = 0x5 * 2 ^ 60 + c.toNat :=
  toNat_append_eq 0x5#4 c

theorem encode_rewindBytes_toNat (c : BitVec 60) :
    (encode (.rewindBytes c)).toNat = 0x6 * 2 ^ 60 + c.toNat :=
  toNat_append_eq 0x6#4 c

/-- The opcode field as a number (R61). -/
theorem opField_toNat (cw : CommandWord) : (cw.extractLsb 63 60).toNat = cw.toNat / 2 ^ 60 := by
  have h := cw.isLt
  simp only [BitVec.extractLsb_toNat, Nat.shiftRight_eq_div_pow]
  omega

end Sys2Proof
end

