-- ==== Sys2Proof/Laws/State.lean ====
section
/-! SUPPORT. One lemma per field per update of State, true by rfl. -/

namespace Sys2Proof.Machine

section answered
variable (s : State) (st : Status) (r : Word64)
@[simp] theorem State.answered_build : (s.answered st r).build = s.build := rfl
@[simp] theorem State.answered_storage : (s.answered st r).storage = s.storage := rfl
@[simp] theorem State.answered_wc : (s.answered st r).wc = s.wc := rfl
@[simp] theorem State.answered_rc : (s.answered st r).rc = s.rc := rfl
@[simp] theorem State.answered_pos : (s.answered st r).pos = s.pos := rfl
@[simp] theorem State.answered_port : (s.answered st r).port = s.port := rfl
@[simp] theorem State.answered_responses : (s.answered st r).responses = s.responses ++ [⟨st, r⟩] := rfl
@[simp] theorem State.answered_slot (i : Nat) : (s.answered st r).slot i = s.slot i := rfl
end answered

section inject
variable (s : State) (v : Byte)
@[simp] theorem State.inject_build : (s.inject v).build = s.build := rfl
@[simp] theorem State.inject_storage :
    (s.inject v).storage = storeBits s.build s.wc v 8 s.storage := rfl
@[simp] theorem State.inject_wc : (s.inject v).wc = mask s.build (s.wc + 8) := rfl
@[simp] theorem State.inject_rc : (s.inject v).rc = s.rc := rfl
@[simp] theorem State.inject_pos : (s.inject v).pos = s.pos := rfl
@[simp] theorem State.inject_port : (s.inject v).port = s.port := rfl
@[simp] theorem State.inject_responses : (s.inject v).responses = s.responses := rfl
end inject

section consume
variable (s : State) (n : Nat)
@[simp] theorem State.consume_build : (s.consume n).build = s.build := rfl
@[simp] theorem State.consume_storage : (s.consume n).storage = s.storage := rfl
@[simp] theorem State.consume_wc : (s.consume n).wc = s.wc := rfl
@[simp] theorem State.consume_rc : (s.consume n).rc = mask s.build (s.rc + n) := rfl
@[simp] theorem State.consume_pos : (s.consume n).pos = s.pos + BitVec.ofNat 64 n := rfl
@[simp] theorem State.consume_port : (s.consume n).port = s.port := rfl
@[simp] theorem State.consume_responses : (s.consume n).responses = s.responses := rfl
@[simp] theorem State.consume_slot (i : Nat) : (s.consume n).slot i = s.slot i := rfl
end consume

section unconsume
variable (s : State) (bits : Word64)
@[simp] theorem State.unconsume_build : (s.unconsume bits).build = s.build := rfl
@[simp] theorem State.unconsume_storage : (s.unconsume bits).storage = s.storage := rfl
@[simp] theorem State.unconsume_wc : (s.unconsume bits).wc = s.wc := rfl
@[simp] theorem State.unconsume_rc :
    (s.unconsume bits).rc = maskInt s.build ((s.rc : Int) - bits.toNat) := rfl
@[simp] theorem State.unconsume_pos : (s.unconsume bits).pos = s.pos - bits := rfl
@[simp] theorem State.unconsume_port : (s.unconsume bits).port = s.port := rfl
@[simp] theorem State.unconsume_responses : (s.unconsume bits).responses = s.responses := rfl
@[simp] theorem State.unconsume_slot (i : Nat) : (s.unconsume bits).slot i = s.slot i := rfl
end unconsume

section resetOf
variable (b : Build)
@[simp] theorem State.resetOf_build : (State.resetOf b).build = b := rfl
@[simp] theorem State.resetOf_storage : (State.resetOf b).storage = [] := rfl
@[simp] theorem State.resetOf_wc : (State.resetOf b).wc = 0 := rfl
@[simp] theorem State.resetOf_rc : (State.resetOf b).rc = 0 := rfl
@[simp] theorem State.resetOf_pos : (State.resetOf b).pos = 0 := rfl
@[simp] theorem State.resetOf_port : (State.resetOf b).port = [] := rfl
@[simp] theorem State.resetOf_responses : (State.resetOf b).responses = [] := rfl
@[simp] theorem State.resetOf_slot (i : Nat) : (State.resetOf b).slot i = 0#1 := rfl
end resetOf

section assertReset
variable (s : State)
@[simp] theorem State.assertReset_build : s.assertReset.build = s.build := rfl
@[simp] theorem State.assertReset_storage : s.assertReset.storage = [] := rfl
@[simp] theorem State.assertReset_wc : s.assertReset.wc = 0 := rfl
@[simp] theorem State.assertReset_rc : s.assertReset.rc = 0 := rfl
@[simp] theorem State.assertReset_pos : s.assertReset.pos = 0 := rfl
@[simp] theorem State.assertReset_port : s.assertReset.port = s.port := rfl
@[simp] theorem State.assertReset_responses : s.assertReset.responses = s.responses := rfl
end assertReset

section withChecked
variable (s : State) (c : Bool)
@[simp] theorem State.withChecked_checked : (s.withChecked c).build.checked = c := rfl
@[simp] theorem State.withChecked_log2Cap : (s.withChecked c).build.log2Cap = s.build.log2Cap := rfl
@[simp] theorem State.withChecked_cap : (s.withChecked c).build.cap = s.build.cap := rfl
@[simp] theorem State.withChecked_storage : (s.withChecked c).storage = s.storage := rfl
@[simp] theorem State.withChecked_wc : (s.withChecked c).wc = s.wc := rfl
@[simp] theorem State.withChecked_rc : (s.withChecked c).rc = s.rc := rfl
@[simp] theorem State.withChecked_pos : (s.withChecked c).pos = s.pos := rfl
@[simp] theorem State.withChecked_port : (s.withChecked c).port = s.port := rfl
@[simp] theorem State.withChecked_responses : (s.withChecked c).responses = s.responses := rfl
@[simp] theorem State.withChecked_slot (i : Nat) : (s.withChecked c).slot i = s.slot i := rfl
end withChecked

section port
variable (s : State)
@[simp] theorem State.present_port (inputs : List PortInput) :
    (s.present inputs).port = s.port ++ inputs := rfl
@[simp] theorem State.withFetchWord_port (nbits w : Nat) :
    (s.withFetchWord nbits w).port = .command (tableWord nbits w) :: s.port := rfl
@[simp] theorem State.slot_port (p : List PortInput) (i : Nat) :
    State.slot { s with port := p } i = s.slot i := rfl
@[simp] theorem State.slot_responses (rs : List Response) (i : Nat) :
    State.slot { s with responses := rs } i = s.slot i := rfl
end port

end Sys2Proof.Machine
end

