-- ==== Sys2Proof/Laws/Memory.lean ====
section
/-! SUPPORT. The laws of the slot memory: every operation keeps the canonical form, a read after a write gives the
written bit, and a write leaves every other slot alone. -/

namespace Sys2Proof.Machine

theorem Memory.wf_cons {c : Nat × Bit} {m : Memory} (h : Memory.wf (c :: m)) : Memory.wf m :=
  ⟨(List.pairwise_cons.mp h.1).2, fun d hd => h.2 d (List.mem_cons_of_mem _ hd)⟩

/-- Below every listed slot nothing is listed. -/
theorem Memory.read_eq_zero_of_lt {m : Memory} {i : Nat} (h : ∀ c ∈ m, i < c.1) : m.read i = 0#1 := by
  induction m with
  | nil => rfl
  | cons c rest ih =>
    have hc := h c (by simp)
    simp only [Memory.read, if_neg (show i ≠ c.1 by omega)]
    exact ih fun d hd => h d (List.mem_cons_of_mem _ hd)

/-- Every entry after a write was there before, or is the written slot's. -/
theorem Memory.mem_write {m : Memory} {i : Nat} {b : Bit} {c : Nat × Bit} (h : c ∈ m.write i b) :
    c ∈ m ∨ (c = (i, b) ∧ b ≠ 0#1) := by
  induction m with
  | nil =>
    simp only [Memory.write] at h
    split at h <;> simp_all
  | cons d rest ih =>
    simp only [Memory.write] at h
    split at h
    · split at h <;> simp_all
      tauto
    · split at h
      · split at h <;> simp_all
        tauto
      · rcases List.mem_cons.mp h with rfl | h
        · simp
        · rcases ih h with h | h
          · exact .inl (List.mem_cons_of_mem _ h)
          · exact .inr h

/-- A write keeps the canonical form. -/
theorem Memory.write_wf {m : Memory} (hm : m.wf) (i : Nat) (b : Bit) : (m.write i b).wf := by
  induction m with
  | nil =>
    simp only [Memory.write]
    split <;> simp_all [Memory.wf]
  | cons c rest ih =>
    have hlt := (List.pairwise_cons.mp hm.1).1
    have hrest := Memory.wf_cons hm
    simp only [Memory.write]
    split
    · split
      · exact hm
      · refine ⟨List.pairwise_cons.mpr ⟨fun d hd => ?_, hm.1⟩, fun d hd => ?_⟩
        · rcases List.mem_cons.mp hd with rfl | hd
          · assumption
          · have := hlt d hd; omega
        · rcases List.mem_cons.mp hd with rfl | hd
          · assumption
          · exact hm.2 d hd
    · split
      · subst i
        split
        · exact hrest
        · refine ⟨List.pairwise_cons.mpr ⟨hlt, hrest.1⟩, fun d hd => ?_⟩
          rcases List.mem_cons.mp hd with rfl | hd
          · assumption
          · exact hrest.2 d hd
      · have h := ih hrest
        refine ⟨List.pairwise_cons.mpr ⟨fun d hd => ?_, h.1⟩, fun d hd => ?_⟩
        · rcases Memory.mem_write hd with hd | ⟨rfl, -⟩
          · exact hlt d hd
          · show c.1 < i; omega
        · rcases List.mem_cons.mp hd with rfl | hd
          · exact hm.2 _ (by simp)
          · exact h.2 d hd

/-- A write within a range of slots keeps the memory within it. -/
theorem Memory.write_lt {m : Memory} {n i : Nat} {b : Bit} (hm : ∀ c ∈ m, c.1 < n) (hi : i < n) :
    ∀ c ∈ m.write i b, c.1 < n := fun c hc => by
  rcases Memory.mem_write hc with h | ⟨rfl, -⟩
  · exact hm c h
  · exact hi

/-- A read of the slot just written gives the written bit. -/
theorem Memory.read_write_self {m : Memory} (hm : m.wf) (i : Nat) (b : Bit) : (m.write i b).read i = b := by
  induction m with
  | nil =>
    simp only [Memory.write]
    split <;> simp_all [Memory.read]
  | cons c rest ih =>
    have hlt := (List.pairwise_cons.mp hm.1).1
    simp only [Memory.write]
    split
    · split
      · subst b
        refine Memory.read_eq_zero_of_lt fun d hd => ?_
        rcases List.mem_cons.mp hd with rfl | hd
        · assumption
        · have := hlt d hd; omega
      · simp [Memory.read]
    · split
      · subst i
        split
        · subst b
          exact Memory.read_eq_zero_of_lt hlt
        · simp [Memory.read]
      · simp only [Memory.read, if_neg ‹¬ i = _›]
        exact ih (Memory.wf_cons hm)

/-- A write leaves every other slot alone. -/
theorem Memory.read_write_other (m : Memory) {i j : Nat} (h : j ≠ i) (b : Bit) :
    (m.write i b).read j = m.read j := by
  induction m with
  | nil =>
    simp only [Memory.write]
    split <;> simp [Memory.read, h]
  | cons c rest ih =>
    simp only [Memory.write]
    split
    · split
      · rfl
      · simp [Memory.read, h]
    · split
      · subst i
        split <;> simp [Memory.read, h]
      · simp only [Memory.read, ih]

end Sys2Proof.Machine
end

