-- ==== Sys2Proof/Laws/Ops.lean ====
section
/-! SUPPORT. What each shared operation can do, said once. -/

namespace Sys2Proof.Machine

theorem cap_pos (b : Build) : 0 < b.cap := Nat.two_pow_pos _

/-- Masking a number that is not negative is the natural numbers' `mod CAP`. -/
@[simp] theorem maskInt_natCast (b : Build) (n : Nat) : maskInt b n = mask b n := by
  simp only [maskInt, mask]
  rw [← Int.natCast_emod]
  exact Int.toNat_natCast _

/-- Every masked index is a slot (R40). -/
theorem mask_lt (b : Build) (n : Nat) : mask b n < b.cap := Nat.mod_lt _ (cap_pos b)

theorem maskInt_lt (b : Build) (x : Int) : maskInt b x < b.cap := by
  have h := cap_pos b
  have h1 := Int.emod_nonneg x (show (b.cap : Int) ≠ 0 by omega)
  have h2 := Int.emod_lt_of_pos x (show (0 : Int) < b.cap by omega)
  simp only [maskInt]
  omega

/-- An index below CAP is its own mask. -/
theorem mask_eq_self {b : Build} {n : Nat} (h : n < b.cap) : mask b n = n := Nat.mod_eq_of_lt h

/-- Masking before an addition and after it is masking after it. -/
@[simp] theorem mask_mask_add (b : Build) (n k : Nat) : mask b (mask b n + k) = mask b (n + k) :=
  Nat.mod_add_mod n b.cap k

theorem maskInt_mask_add (b : Build) (n : Nat) (y : Int) : maskInt b ((mask b n : Int) + y) = maskInt b (n + y) := by
  simp only [maskInt, mask, Int.natCast_emod, Int.emod_add_emod]

/-- ANDing with `MASK = CAP - 1`, whose bits are `LOG2_CAP` ones, is masking (R6). -/
theorem mask_eq_and (b : Build) (n : Nat) : mask b n = n &&& (b.cap - 1) :=
  (Nat.and_two_pow_sub_one_eq_mod n b.log2Cap.val).symm

@[simp] theorem respond_eq (st : Status) (r : Word64) (s : State) : respond st r s = .next (s.answered st r) := rfl

@[simp] theorem raise_eq (f : Status) (s : State) : raise f s = .next (s.answered f 0) := rfl

@[simp] theorem andThen_next (s : State) (f : State → Host.Outcome State Fault Refusal) :
    andThen (.next s) f = f s := rfl

/-- Two commands in a row give a next state exactly when the second does from the first's. -/
theorem andThen_eq_next {o : Host.Outcome State Fault Refusal} {f : State → Host.Outcome State Fault Refusal}
    {t : State} (h : andThen o f = .next t) : ∃ u, o = .next u ∧ f u = .next t := by
  cases o with
  | next u => exact ⟨u, rfl, h⟩
  | fault r => cases h
  | refused r => cases h

/-- The slot writes of INJECT_BYTE keep the canonical form. -/
theorem storeBits_wf (b : Build) (wc : Nat) (v : Byte) {m : Memory} (hm : m.wf) (k : Nat) :
    (storeBits b wc v k m).wf := by
  induction k with
  | zero => exact hm
  | succ k ih => exact Memory.write_wf ih _ _

/-- The slot writes of INJECT_BYTE reach only slots that exist. -/
theorem storeBits_lt (b : Build) (wc : Nat) (v : Byte) {m : Memory} (hm : ∀ c ∈ m, c.1 < b.cap) (k : Nat) :
    ∀ c ∈ storeBits b wc v k m, c.1 < b.cap := by
  induction k with
  | zero => exact hm
  | succ k ih => exact Memory.write_lt ih (mask_lt b _)

/-- A slot that none of the first `k` writes reaches keeps its bit. -/
theorem read_storeBits_other (b : Build) (wc : Nat) (v : Byte) (m : Memory) (k : Nat) {j : Nat}
    (h : ∀ i < k, j ≠ mask b (wc + i)) : (storeBits b wc v k m).read j = m.read j := by
  induction k with
  | zero => rfl
  | succ k ih =>
    simp only [storeBits]
    rw [Memory.read_write_other _ (h k (by omega))]
    exact ih fun i hi => h i (by omega)

/-- A slot holds the bit of the last of the first `k` writes that reaches it. -/
theorem read_storeBits_last (b : Build) (wc : Nat) (v : Byte) {m : Memory} (hm : m.wf) (k : Nat) {i : Nat}
    (hi : i < k) (h : ∀ j < k, i < j → mask b (wc + j) ≠ mask b (wc + i)) :
    (storeBits b wc v k m).read (mask b (wc + i)) = v.extractLsb' (7 - i) 1 := by
  induction k with
  | zero => omega
  | succ k ih =>
    simp only [storeBits]
    by_cases hk : i = k
    · subst hk
      exact Memory.read_write_self (storeBits_wf b wc v hm _) _ _
    · rw [Memory.read_write_other _ (h k (by omega) (by omega)).symm]
      exact ih (by omega) fun j hj => h j (by omega)

/-- The accumulator reads slots only: it is the same in two states with the same build, slots and read cursor. -/
theorem readAccumulator_congr {s t : State} (hb : t.build = s.build) (hr : t.rc = s.rc)
    (hs : t.storage = s.storage) (n : Nat) : readAccumulator t n = readAccumulator s n := by
  induction n with
  | zero => rfl
  | succ k ih => simp only [readAccumulator, State.slot, hb, hr, hs, ih]

/-- A rewind answers an underflow and changes nothing else, or answers OK and moves the registers back. -/
theorem rewind_cases (bits : Word64) (s : State) :
    (rewindUnderflow s bits = true ∧ rewind bits s = .next (s.answered .rewindUnderflow 0)) ∨
    (rewindUnderflow s bits = false ∧ rewind bits s = .next ((s.unconsume bits).answered .ok 0)) := by
  unfold rewind
  cases h : rewindUnderflow s bits <;> simp

/-- READ_BITS answers the width fault and changes nothing else, or reads. -/
theorem execReadBits_cases (n : BitVec 6) (s : State) :
    (readWidthOutOfRange s.build n.toNat = true ∧
      execReadBits n s = .next (s.answered .readWidthOutOfRange 0)) ∨
    (readWidthOutOfRange s.build n.toNat = false ∧
      execReadBits n s =
        .next ((s.consume n.toNat).answered .ok ((readAccumulator s n.toNat).zeroExtend 64))) := by
  unfold execReadBits widthOperand
  cases h : readWidthOutOfRange s.build n.toNat <;> simp

end Sys2Proof.Machine
end

