-- ==== Sys2Proof/Laws/PerInstr.lean ====
section
/-! SUPPORT. The family OpcodeField: the top four bits of a command's word are its opcode in the map of R64. -/

namespace Sys2Proof.Laws.OpcodeField

/-- The opcode of a command (R64). -/
def opcode : Instr → Nat
  | .injectByte _ => 0x1
  | .readBits _ => 0x2
  | .readOneBit => 0x3
  | .position => 0x4
  | .rewindBits _ => 0x5
  | .rewindBytes _ => 0x6

/-- Bits 63 to 60 of the word are the opcode (R61). -/
def Statement (i : Instr) : Prop := ((encode i).extractLsb 63 60).toNat = opcode i

theorem injectByte (value : Byte) : Statement (.injectByte value) := by
  have h := value.isLt
  rw [Statement, opField_toNat, encode_injectByte_toNat, opcode]
  omega

theorem readBits (n : BitVec 6) : Statement (.readBits n) := by
  have h := n.isLt
  rw [Statement, opField_toNat, encode_readBits_toNat, opcode]
  omega

theorem readOneBit : Statement .readOneBit := by
  show ((encode .readOneBit).extractLsb 63 60).toNat = 0x3; decide

theorem position : Statement .position := by
  show ((encode .position).extractLsb 63 60).toNat = 0x4; decide

theorem rewindBits (count : BitVec 60) : Statement (.rewindBits count) := by
  have h := count.isLt
  rw [Statement, opField_toNat, encode_rewindBits_toNat, opcode]
  omega

theorem rewindBytes (count : BitVec 60) : Statement (.rewindBytes count) := by
  have h := count.isLt
  rw [Statement, opField_toNat, encode_rewindBytes_toNat, opcode]
  omega

end Sys2Proof.Laws.OpcodeField
end

