-- ==== Sys2Proof/Laws/Step.lean ====
section
/-! SUPPORT. What a step can do, said once: an idle step, a reset, or one command word. -/

namespace Sys2Proof.Machine

theorem step_idle {s : State} (h : s.port = []) : step s = idle s := by
  simp only [step, h]

theorem step_input {s : State} {input : PortInput} {rest : List PortInput} (h : s.port = input :: rest) :
    step s = accept input { s with port := rest } := by
  simp only [step, h]

theorem runWord_command {cw : CommandWord} {i : Instr} (h : decode cw = .command i) (s : State) :
    runWord cw s = exec i s := by
  simp only [runWord, h]

theorem runWord_illegal {cw : CommandWord} {why : IllegalWord} (h : decode cw = .illegal why) (s : State) :
    runWord cw s = .next (s.answered .invalidCommand 0) := by
  simp only [runWord, h, raise_eq]

end Sys2Proof.Machine
end

