-- ==== Sys2Proof/Tests/Slice0.lean ====
section
/-! SUPPORT. The model's own tests. Expected values come from spec/95_test_vectors.md (its vector's name stands in the
test's docstring) or from the encodings of spec/30_encoding.md. The witnesses at the end meet the hypotheses of the
statements of Certificates/Slice0/Obligations.lean. -/

namespace Sys2Proof.Tests
open Sys2Proof.Machine

/-- The next state, if there is one. -/
def next? : Host.Outcome State Fault Refusal → Option State
  | .next t => some t
  | .fault _ => none
  | .refused _ => none

/-- A memory with the listed slots at 1. -/
def ones (slots : List Nat) : Memory := slots.map fun i => (i, 1#1)

/-- A small state, with nothing presented and nothing answered. -/
def st (log2Cap : Fin 33) (checked : Bool) (m : Memory) (wc rc : Nat) (pos : Word64) : State :=
  { build := ⟨log2Cap, checked⟩, storage := m, wc := wc, rc := rc, pos := pos, port := [], responses := [] }

/-- What a step on one presented word leaves: the last response, then slots, cursors and counter. -/
def stepWord (w : Nat) (s : State) : Option (Option Response × Memory × Nat × Nat × Word64) :=
  (next? (step (s.withFetchWord 64 w))).map fun t => (t.responses.getLast?, t.storage, t.wc, t.rc, t.pos)

/-! ## Ill-formed terms are refused -/

theorem test_wf_inject : (AsmLine.core (.injectByte 255)).wellFormed = true ∧
    (AsmLine.core (.injectByte 256)).wellFormed = false := by decide
theorem test_wf_read : (AsmLine.core (.readBits 63)).wellFormed = true ∧
    (AsmLine.core (.readBits 64)).wellFormed = false := by decide
theorem test_wf_rewind_bits : (AsmLine.core (.rewindBits (2 ^ 60 - 1))).wellFormed = true ∧
    (AsmLine.core (.rewindBits (2 ^ 60))).wellFormed = false := by decide
theorem test_wf_rewind_bytes : (AsmLine.core (.rewindBytes (2 ^ 60 - 1))).wellFormed = true ∧
    (AsmLine.core (.rewindBytes (2 ^ 60))).wellFormed = false := by decide
theorem test_wf_peek : (AsmLine.peekBits 63).wellFormed = true ∧ (AsmLine.peekBits 64).wellFormed = false := by decide
/-- No row of the opcode map: opcodes 0x0, 0x7 and 0xF (V-D1 to V-D3). -/
theorem test_wf_opcode : CommandWord.wellFormed 0x0000000000000000#64 = false ∧
    CommandWord.wellFormed 0x7000000000000000#64 = false ∧
    CommandWord.wellFormed 0xF000000000000000#64 = false := by decide
/-- A reserved bit of each format that has some (V-I7, V-R10, V-O5, V-P4). -/
theorem test_wf_reserved : CommandWord.wellFormed 0x1000000000000100#64 = false ∧
    CommandWord.wellFormed 0x2000000000000040#64 = false ∧
    CommandWord.wellFormed 0x3000000000000001#64 = false ∧
    CommandWord.wellFormed 0x4000000000000001#64 = false := by decide

/-! ## Words written out bit by bit from the formats (R62), one or more for each command -/

theorem test_decode_inject :
    decode 0b0001000000000000000000000000000000000000000000000000000010110010#64 = .command (.injectByte 0xB2#8) := by
  decide
theorem test_decode_read :
    decode 0b0010000000000000000000000000000000000000000000000000000000101000#64 = .command (.readBits 40#6) := by
  decide
theorem test_decode_one :
    decode 0b0011000000000000000000000000000000000000000000000000000000000000#64 = .command .readOneBit := by decide
theorem test_decode_position :
    decode 0b0100000000000000000000000000000000000000000000000000000000000000#64 = .command .position := by decide
theorem test_decode_rewind_bits :
    decode 0b0101100000000000000000000000000000000000000000000000000000000101#64 =
      .command (.rewindBits 0x800000000000005#60) := by decide
theorem test_decode_rewind_bytes :
    decode 0b0110100000000000000000000000000000000000000000000000000000000011#64 =
      .command (.rewindBytes 0x800000000000003#60) := by decide
/-- V-D7: reserved bits 8 to 15 of format B. -/
theorem test_decode_reserved : decode 0x100000000000FF00#64 = .illegal .reservedBit := by decide
/-- The examples of R70, as text. -/
theorem test_assemble_text :
    assembleText "INJECT_BYTE 0xB2 ; a byte\nREAD_BITS 3\n\nREWIND_BITS 4\nREWIND_BYTES 1" =
      some [0x10000000000000B2#64, 0x2000000000000003#64, 0x5000000000000004#64, 0x6000000000000001#64] := by decide
/-- R70: "An operand outside its range is an assembly error"; R71's pseudo-instructions. -/
theorem test_assemble_range : assembleText "READ_BITS 64" = none ∧ assembleText "READ_BYTE\nPEEK_BITS 0x3\nNOP" =
    some [0x2000000000000008#64, 0x2000000000000003#64, 0x5000000000000003#64, 0x4000000000000000#64] := by decide

/-! ## One step each -/

/-- V-I2: the write cursor wraps. -/
theorem test_inject_wrap : stepWord 0x100000000000000F (st 6 false [] 56 0 0) =
    some (some ⟨.ok, 0⟩, ones [60, 61, 62, 63], 0, 0, 0) := by decide
/-- V-I4: CAP = 4, later writes win. -/
theorem test_inject_small : stepWord 0x10000000000000B2 (st 2 true [] 0 0 0) =
    some (some ⟨.ok, 0⟩, ones [2], 0, 0, 0) := by decide
/-- V-R4: a read across the physical end. -/
theorem test_read_wrap : stepWord 0x2000000000000008 (st 6 true (ones [0, 1, 60, 62]) 0 60 0) =
    some (some ⟨.ok, 0xAC⟩, ones [0, 1, 60, 62], 0, 4, 8) := by decide
/-- V-R8: baseline, 40 bits at CAP = 32, the last 32 bits read. -/
theorem test_read_wide : (stepWord 0x2000000000000028 (st 5 false (ones [0, 1, 2, 3, 4, 5, 6, 7]) 0 0 0)).map
    (fun r => (r.1, r.2.2)) = some (some ⟨.ok, 0xFF⟩, 0, 8, 0x28) := by decide +kernel
/-- V-O2: the read cursor wraps. -/
theorem test_one_wrap : stepWord 0x3000000000000000 (st 6 false (ones [63]) 0 63 0) =
    some (some ⟨.ok, 1⟩, ones [63], 0, 0, 1) := by decide
/-- V-P3: the pattern of a negative position. -/
theorem test_position : stepWord 0x4000000000000000 (st 6 false [] 0 61 0xFFFFFFFFFFFFFFFD) =
    some (some ⟨.ok, 0xFFFFFFFFFFFFFFFD⟩, [], 0, 61, 0xFFFFFFFFFFFFFFFD) := by decide
/-- V-W8: baseline, the largest count. -/
theorem test_rewind_past : stepWord 0x5FFFFFFFFFFFFFFF (st 6 false [] 0 0 0) =
    some (some ⟨.ok, 0⟩, [], 0, 1, 0xF000000000000001) := by decide
/-- V-W6: checked, one bit too many. -/
theorem test_rewind_underflow : stepWord 0x5000000000000004 (st 6 true [] 0 3 3) =
    some (some ⟨.rewindUnderflow, 0⟩, [], 0, 3, 3) := by decide
/-- V-Y2: a wrap past slot 0. -/
theorem test_rewind_bytes_wrap : stepWord 0x6000000000000001 (st 4 true [] 0 4 20) =
    some (some ⟨.ok, 0⟩, [], 0, 12, 12) := by decide
/-- V-Y5: baseline, the largest count, no overflow in `8 * count`. -/
theorem test_rewind_bytes_past : stepWord 0x6FFFFFFFFFFFFFFF (st 6 false [] 0 0 0) =
    some (some ⟨.ok, 0⟩, [], 0, 8, 0x8000000000000008) := by decide
/-- V-D2: an illegal word, in a checked build. -/
theorem test_illegal : stepWord 0x7000000000000000 (st 5 true (ones [0]) 8 1 1) =
    some (some ⟨.invalidCommand, 0⟩, ones [0], 8, 1, 1) := by decide
/-- R161: the reset input. -/
theorem test_reset_input : next? (step { st 5 true (ones [0]) 8 1 1 with port := [.reset] }) =
    some (State.resetOf ⟨5, true⟩) := by decide
/-- R7: capacities that are not built, and the largest that is. -/
theorem test_construct : next? (construct 48 false) = none ∧ next? (construct 0 true) = none ∧
    next? (construct (-8) true) = none ∧ next? (construct 4294967296 true) = some (State.resetOf ⟨32, true⟩) := by decide

/-! ## Witnesses: states and operands that meet a statement's hypotheses, clause by clause at a boundary -/

theorem st_inv_of (log2Cap : Fin 33) (checked : Bool) (wc rc : Nat) (pos : Word64)
    (h : wc < 2 ^ log2Cap.val ∧ rc < 2 ^ log2Cap.val ∧ (8 ≤ 2 ^ log2Cap.val → wc % 8 = 0) ∧
      (2 ^ log2Cap.val < 8 → wc = 0)) : (st log2Cap checked [] wc rc pos).Inv :=
  ⟨⟨List.Pairwise.nil, by simp [st]⟩, by simp [st], h.1, h.2.1, h.2.2.1, h.2.2.2⟩

theorem witness_DecodedWordIsItsEncoding : decode 0x4000000000000000#64 = .command .position := by decide
theorem witness_DecoderAgreesWithOpcodeTable :
    (⟨"POSITION", 0x4000000000000000#64, 0xFFFFFFFFFFFFFFFF#64⟩ : OpcodeRow) ∈ opcodeTable := by decide
theorem witness_IllegalWordIsRefused :
    State.port { st 5 true [] 8 1 1 with port := [.command 0x1000000000000100#64] } =
      .command 0x1000000000000100#64 :: [] ∧ decode 0x1000000000000100#64 = .illegal .reservedBit := by decide
/-- Each clause of the illegal words at its boundary, and the last legal word below it. -/
theorem witness_IllegalWordClauses :
    decode 0x0FFFFFFFFFFFFFFF#64 = .illegal .opcode ∧ decode 0x7000000000000000#64 = .illegal .opcode ∧
    decode 0x6FFFFFFFFFFFFFFF#64 = .command (.rewindBytes 0xFFFFFFFFFFFFFFF#60) ∧
    decode 0x1000000000000100#64 = .illegal .reservedBit ∧ decode 0x10000000000000FF#64 = .command (.injectByte 255#8) ∧
    decode 0x2000000000000040#64 = .illegal .reservedBit ∧ decode 0x200000000000003F#64 = .command (.readBits 63#6) ∧
    decode 0x3800000000000000#64 = .illegal .reservedBit ∧ decode 0x4000000000000001#64 = .illegal .reservedBit := by
  decide
theorem witness_AssemblerAgreesWithEncoding : AsmCore.inRange (.injectByte 255) = true ∧
    AsmCore.inRange (.injectByte 256) = false ∧ (63 : Nat) ≤ 63 ∧ (63 : Nat) < 64 := by decide
theorem witness_StepRunsDecodedCommand :
    State.port { st 5 true [] 8 1 1 with port := [.command 0x3000000000000000#64, .reset] } =
      .command 0x3000000000000000#64 :: [.reset] ∧ decode 0x3000000000000000#64 = .command .readOneBit := by decide
theorem witness_ResetClearsAllButTheBuild :
    State.port { st 5 true (ones [3]) 8 1 1 with port := [.reset, .reset] } = .reset :: [.reset] := by decide
theorem witness_StepTakesOneInput : (st 5 true [] 8 1 1).port = [] ∧
    next? (step { st 5 true [] 8 1 1 with port := [.reset, .reset] }) =
      some { State.resetOf ⟨5, true⟩ with port := [.reset] } := by decide
theorem witness_OneResponsePerCommand :
    State.port { st 5 true [] 8 1 1 with port := [.command 0#64] } = .command 0#64 :: [] := by decide
/-- A word that faults, and a word that checked mode answers OK. -/
theorem witness_FaultsArePreciseAndModesAgree :
    next? (runWord 0x2000000000000021#64 (st 5 true [] 8 1 1)) =
      some { st 5 true [] 8 1 1 with responses := [⟨.readWidthOutOfRange, 0⟩] } ∧
    next? (runWord 0x5000000000000001#64 ((st 5 false [] 8 1 1).withChecked true)) =
      some { st 5 true [] 8 0 0 with responses := [⟨.ok, 0⟩] } := by decide
theorem witness_InjectByteEffect : Memory.wf (ones [0, 5, 9]) ∧
    ∀ k : Nat, 7 < k → k < 8 → mask ⟨2, false⟩ (0 + k) ≠ mask ⟨2, false⟩ (0 + 7) :=
  ⟨by decide, fun _ _ _ => by omega⟩
theorem witness_InjectByteInSmallCapacity : (st 2 true [] 0 3 0).Inv ∧ (st 2 true [] 0 3 0).build.cap < 8 :=
  ⟨st_inv_of _ _ _ _ _ (by decide), by decide⟩
theorem witness_InjectByteStaysInsideTheBuffer : (st 3 true [] 0 7 0).Inv ∧ 8 ≤ (st 3 true [] 0 7 0).build.cap :=
  ⟨st_inv_of _ _ _ _ _ (by decide), by decide⟩
/-- The three cases of a width: 32 in checked mode, 33 in checked mode, 63 in baseline mode. -/
theorem witness_ReadBitsEffect : ¬((st 5 true [] 0 0 0).build.checked = true ∧ 32 < (32#6).toNat) ∧
    ((st 5 true [] 0 0 0).build.checked = true ∧ 32 < (33#6).toNat) ∧
    ¬((st 5 false [] 0 0 0).build.checked = true ∧ 32 < (63#6).toNat) := by decide
theorem witness_ReadBitsOfWidthZeroChangesNothing : (st 5 true [] 0 31 0).rc < (st 5 true [] 0 31 0).build.cap := by
  decide
theorem witness_ReadOneBitEffect : (st 0 true [] 0 0 0).rc < (st 0 true [] 0 0 0).build.cap := by decide
theorem witness_ReadPathsAgree : (st 5 true [] 0 24 0).rc + 8 ≤ (st 5 true [] 0 24 0).build.cap ∧
    (st 5 true [] 0 31 0).rc < (st 5 true [] 0 31 0).build.cap ∧
    ¬((st 5 true [] 0 31 0).build.checked = true ∧ 32 < (32#6).toNat) := by decide
theorem witness_PositionLaw : decode 0#64 = .illegal .opcode := by decide
/-- A rewind of exactly POS bits, one bit more in checked mode, and the same in baseline mode. -/
theorem witness_RewindBitsEffect : ¬((st 6 true [] 0 3 3).build.checked = true ∧ (3#64).toNat < (3#60).toNat) ∧
    ((st 6 true [] 0 3 3).build.checked = true ∧ (st 6 true [] 0 3 3).pos.toNat < (4#60).toNat) ∧
    ¬((st 6 false [] 0 3 3).build.checked = true ∧ (st 6 false [] 0 3 3).pos.toNat < (4#60).toNat) := by decide
theorem witness_RewindBytesEffect : ¬((st 6 true [] 0 8 8).build.checked = true ∧ (8#64).toNat < 8 * (1#60).toNat) ∧
    ((st 6 true [] 0 7 7).build.checked = true ∧ (st 6 true [] 0 7 7).pos.toNat < 8 * (1#60).toNat) ∧
    ¬((st 6 false [] 0 7 7).build.checked = true ∧ (st 6 false [] 0 7 7).pos.toNat < 8 * (1#60).toNat) := by decide
theorem witness_CheckedRewindNeverBorrows :
    (∃ c, Instr.rewindBits 4#60 = .rewindBits c ∨ Instr.rewindBits 4#60 = .rewindBytes c) ∧
    (st 6 true [] 0 3 3).build.checked = true ∧
    next? (exec (.rewindBits 4#60) (st 6 true [] 0 3 3)) =
      some { st 6 true [] 0 3 3 with responses := [⟨.rewindUnderflow, 0⟩] } :=
  ⟨⟨4#60, .inl rfl⟩, by decide, by decide⟩
theorem witness_BaselineRewindPastTheStart :
    (∃ c, Instr.rewindBytes 1#60 = .rewindBits c ∨ Instr.rewindBytes 1#60 = .rewindBytes c) ∧
    (st 6 false [] 0 7 7).build.checked = false ∧
    (st 6 false [] 0 7 7).pos.toNat < (Instr.rewindBytes 1#60).bitCount :=
  ⟨⟨1#60, .inr rfl⟩, by decide, by decide⟩
theorem witness_ByteAndBitRewindAgree : (24#60).toNat = 8 * (3#60).toNat := by decide
/-- E4: reads of 8, 1 and 3 bits from slot 60, position 100. -/
theorem witness_RewindRestoresReads : (st 6 true [] 0 60 100).rc < (st 6 true [] 0 60 100).build.cap ∧
    (∀ i ∈ [Instr.readBits 8#6, .readOneBit, .readBits 3#6], i.completesRead (st 6 true [] 0 60 100).build = true) ∧
    ([Instr.readBits 8#6, .readOneBit, .readBits 3#6].map Instr.bitCount).sum < 2 ^ 60 ∧
    (st 6 true [] 0 60 100).pos.toNat +
      ([Instr.readBits 8#6, .readOneBit, .readBits 3#6].map Instr.bitCount).sum < 2 ^ 64 := by decide
theorem witness_PeekAndNopLeaveTheBlock : (st 5 true [] 0 31 0).rc < (st 5 true [] 0 31 0).build.cap ∧
    ((st 5 true [] 0 31 0).build.checked = true →
      (32#6).toNat ≤ 32 ∧ (st 5 true [] 0 31 0).pos.toNat + (32#6).toNat < 2 ^ 64) := by decide
theorem witness_StepKeepsInvariant : (st 3 true [] 0 7 0).Inv ∧
    next? (step (st 3 true [] 0 7 0)) = some (st 3 true [] 0 7 0) :=
  ⟨st_inv_of _ _ _ _ _ (by decide), by decide⟩
theorem witness_BuildNeverChanges : next? (steps 2 { st 3 true [] 0 7 0 with port := [.reset] }) =
    some (st 3 true [] 0 0 0) := by decide
theorem witness_OnlyInjectByteWritesStorage : (∀ v, decode 0x4000000000000000#64 ≠ .command (.injectByte v)) ∧
    next? (runWord 0x4000000000000000#64 (st 3 true [] 0 7 5)) =
      some { st 3 true [] 0 7 5 with responses := [⟨.ok, 5⟩] } :=
  ⟨fun v h => (by rw [witness_DecodedWordIsItsEncoding] at h; cases h), by decide⟩
theorem witness_CursorsAreIndependent : (∀ v, Instr.position ≠ .injectByte v) ∧
    next? (exec .position (st 3 true [] 0 7 5)) = some { st 3 true [] 0 7 5 with responses := [⟨.ok, 5⟩] } ∧
    next? (exec (.injectByte 0#8) (st 3 true [] 0 7 5)) = some { st 3 true [] 0 7 5 with responses := [⟨.ok, 0⟩] } :=
  ⟨fun _ h => (nomatch h), by decide, by decide⟩
theorem witness_ResponsesAreNotState : next? (step (st 3 true [] 0 7 5)) = some (st 3 true [] 0 7 5) := by decide
theorem witness_MaskIsTwosComplementAnd : (⟨32, true⟩ : Build).log2Cap.val + 1 ≤ 33 := by decide
theorem witness_StatusCodes : 5 ≤ (5#4).toNat := by decide
/-- Zero is no power of two; neither is a negative number. -/
theorem witness_InvalidCapacityIsNotBuilt : (¬∃ k : Nat, (0 : Int) = 2 ^ k) ∧ (¬∃ k : Nat, (-8 : Int) = 2 ^ k) ∧
    ∀ r ∈ (st 3 true [] 0 7 5).responses, r.status ≠ .invalidCapacity :=
  ⟨fun ⟨k, h⟩ => absurd h (by positivity), fun ⟨k, h⟩ => by
    have : (0 : Int) < 2 ^ k := by positivity
    omega, by decide⟩
theorem witness_ConstructionBuildsPowersOfTwo : (32 : Nat) ≤ 32 ∧ (32 : Nat) < 33 := by decide
theorem witness_InjectedByteIsReadBackAtOnce : (st 3 true [] 0 0 0).Inv ∧ 8 ≤ (st 3 true [] 0 0 0).build.cap ∧
    (st 3 true [] 0 0 0).rc = (st 3 true [] 0 0 0).wc :=
  ⟨st_inv_of _ _ _ _ _ (by decide), by decide, by decide⟩
theorem witness_InjectedBytesComeBackInOrder : (st 4 false [] 8 8 0).Inv ∧ (st 4 false [] 8 8 0).rc = 8 ∧
    (st 4 false [] 8 8 0).rc = (st 4 false [] 8 8 0).wc ∧
    8 * [0xB2#8, 0x12#8].length ≤ (st 4 false [] 8 8 0).build.cap :=
  ⟨st_inv_of _ _ _ _ _ (by decide), by decide, by decide, by decide⟩
/-- A stream of CAP bits, all read (the producer may inject a byte, the consumer may rewind all of it) and not yet read
(the consumer may read all of it). -/
theorem witness_DutifulCallerSeesTheIdealStream :
    Refines (st 3 true [] 0 0 8) ⟨List.replicate 8 0#1, 8⟩ ∧
    Ideal.dutiful ⟨List.replicate 8 0#1, 8⟩ (st 3 true [] 0 0 8).build.cap (.injectByte 0xFF#8) ∧
    Ideal.dutiful ⟨List.replicate 8 0#1, 8⟩ (st 3 true [] 0 0 8).build.cap (.readBits 0#6) ∧
    Ideal.dutiful ⟨List.replicate 8 0#1, 8⟩ (st 3 true [] 0 0 8).build.cap (.rewindBits 8#60) ∧
    Ideal.dutiful ⟨List.replicate 8 0#1, 8⟩ (st 3 true [] 0 0 8).build.cap (.rewindBytes 1#60) ∧
    Refines (st 3 true [] 0 0 0) ⟨List.replicate 8 0#1, 0⟩ ∧
    Ideal.dutiful ⟨List.replicate 8 0#1, 0⟩ (st 3 true [] 0 0 0).build.cap .readOneBit ∧
    Ideal.dutiful ⟨List.replicate 8 0#1, 0⟩ (st 3 true [] 0 0 0).build.cap (.readBits 8#6) :=
  ⟨⟨by decide, by decide, by decide, by decide, by decide, by decide, by decide,
      fun k h _ => by simp only [List.getElem_replicate]; rfl⟩,
    by unfold Ideal.dutiful; decide, by simp [Ideal.dutiful], by unfold Ideal.dutiful; decide,
    by unfold Ideal.dutiful; decide,
    ⟨by decide, by decide, by decide, by decide, by decide, by decide, by decide,
      fun k h _ => by simp only [List.getElem_replicate]; rfl⟩,
    by simp [Ideal.dutiful], by simp [Ideal.dutiful]⟩

end Sys2Proof.Tests
end

section
/-! PROOFS. Masking as an AND of two's-complement words (R6, R9), and which capacities construction builds (R5, R7). -/

namespace Sys2Proof.Machine

/-! ## Masking an integer -/

theorem natCast_maskInt (b : Build) (x : Int) : (maskInt b x : Int) = x % b.cap :=
  Int.toNat_of_nonneg (Int.emod_nonneg x (Int.natCast_ne_zero.mpr (cap_pos b).ne'))

theorem cap_dvd_sub_maskInt (b : Build) (x : Int) : (b.cap : Int) ∣ x - maskInt b x := by
  rw [natCast_maskInt]
  exact Int.dvd_self_sub_emod

/-- Masking sees an integer modulo any multiple of CAP only. -/
theorem maskInt_emod_of_cap_dvd {b : Build} {m : Int} (h : (b.cap : Int) ∣ m) (x : Int) :
    maskInt b (x % m) = maskInt b x := by
  simp only [maskInt, Int.emod_emod_of_dvd x h]

theorem cap_dvd_two_pow {b : Build} {w : Nat} (h : b.log2Cap.val ≤ w) : b.cap ∣ 2 ^ w :=
  Nat.pow_dvd_pow 2 h

/-- The two's-complement pattern of an integer, read as a natural number, masks to the same slot when it has
`LOG2_CAP` bits or more. -/
theorem mask_toNat_ofInt {b : Build} {w : Nat} (h : b.log2Cap.val ≤ w) (x : Int) :
    mask b (BitVec.ofInt w x).toNat = maskInt b x := by
  have hdvd : (b.cap : Int) ∣ ((2 ^ w : Nat) : Int) := Int.natCast_dvd_natCast.mpr (cap_dvd_two_pow h)
  have hpat : ((BitVec.ofInt w x).toNat : Int) = x % ((2 ^ w : Nat) : Int) := by
    rw [BitVec.toNat_ofInt, Int.toNat_of_nonneg (Int.emod_nonneg x (by positivity))]
  rw [← maskInt_natCast, hpat, maskInt_emod_of_cap_dvd hdvd]

/-- In a word of `LOG2_CAP` bits or more, ANDing with `MASK` is masking. -/
theorem toNat_and_mask {b : Build} {w : Nat} (h : b.log2Cap.val ≤ w) (v : BitVec w) :
    (v &&& BitVec.ofNat w (b.cap - 1)).toNat = mask b v.toNat := by
  have hcap : b.cap ≤ 2 ^ w := Nat.le_of_dvd (by positivity) (cap_dvd_two_pow h)
  have hfits : b.cap - 1 < 2 ^ w := by have := cap_pos b; omega
  rw [BitVec.toNat_and, BitVec.toNat_ofNat, Nat.mod_eq_of_lt hfits, mask_eq_and]

/-- Settles O37: `CAP` divides `2 ^ w`, so the pattern of `x` at width `w` and `x` itself have the same mask, and the
AND with the `LOG2_CAP` ones of MASK takes it. -/
theorem maskIsTwosComplementAnd : Obligations.MaskIsTwosComplementAnd := by
  refine ⟨fun b x => ⟨maskInt_lt b x, cap_dvd_sub_maskInt b x⟩, fun b x w hw => ?_⟩
  have hlog : b.log2Cap.val ≤ w := by omega
  rw [toNat_and_mask hlog, mask_toNat_ofInt hlog]

/-! ## Construction -/

/-- The search answers `k` exactly for `2 ^ k` within its fuel: an exponent is unique, so the first hit is the only one. -/
theorem exactLog2_eq_some_iff {fuel k : Nat} {capacity : Int} :
    exactLog2 fuel capacity = some k ↔ k ≤ fuel ∧ capacity = 2 ^ k := by
  rw [exactLog2, List.find?_range_eq_some]
  simp only [decide_eq_true_eq, List.mem_range, Bool.not_eq_true', decide_eq_false_iff_not]
  constructor
  · rintro ⟨hpow, hk, -⟩
    exact ⟨by omega, hpow⟩
  · rintro ⟨hk, rfl⟩
    refine ⟨rfl, by omega, fun j hj heq => hj.ne' ?_⟩
    exact Int.pow_right_injective (by decide) heq

theorem construct_two_pow (b : Build) : construct (2 ^ b.log2Cap.val) b.checked = .next (State.resetOf b) := by
  have hlog : exactLog2 Config.maxLog2Cap (2 ^ b.log2Cap.val) = some b.log2Cap.val :=
    exactLog2_eq_some_iff.mpr ⟨Nat.le_of_lt_succ b.log2Cap.isLt, rfl⟩
  simp only [construct, hlog, Fin.ofNat_val_eq_self]

/-- A capacity that no build has is refused (R7, D3). -/
theorem construct_eq_fault {capacity : Int} (h : ∀ k ≤ Config.maxLog2Cap, capacity ≠ 2 ^ k) (checked : Bool) :
    construct capacity checked = .fault .invalidCapacity := by
  have hnone : exactLog2 Config.maxLog2Cap capacity = none :=
    Option.eq_none_iff_forall_ne_some.mpr fun k hk => by
      obtain ⟨hle, hpow⟩ := exactLog2_eq_some_iff.mp hk
      exact h k hle hpow
  simp only [construct, hnone]

/-- Settles O40: the search for the exponent finds `k` for `2 ^ k` up to `2 ^ 32`, and nothing above, where no exponent
in its range gives the capacity. -/
theorem constructionBuildsPowersOfTwo : Obligations.ConstructionBuildsPowersOfTwo := by
  refine fun k checked => ⟨fun hk => ?_, fun hk => construct_eq_fault (fun j hj heq => ?_) checked⟩
  · exact ⟨_, construct_two_pow ⟨⟨k, Nat.lt_succ_of_le hk⟩, checked⟩, rfl, rfl⟩
  · obtain rfl : k = j := Int.pow_right_injective (by decide) heq
    exact hk.not_ge hj

end Sys2Proof.Machine
end

section
/-! PROOFS. The state (spec/10_state.md): what one command word and one step can do to it, the invariant, the frames of
the two sides (producer and consumer), and what nothing depends on. -/

namespace Sys2Proof.Machine

/-! ## What a command can do -/

theorem exec_injectByte (v : Byte) (s : State) :
    exec (.injectByte v) s = .next ((s.inject v).answered .ok 0) := rfl

/-- What `f` does in `s` is a consumer's effect: it sets `RC`, within its range, and `POS`, and delivers one response,
and these three are the same whatever `WC`, the port and the responses delivered before are. -/
def ConsumerEffect (f : State → Host.Outcome State Fault Refusal) (s : State) : Prop :=
  ∃ (rc : Nat) (pos : Word64) (x : Response), (s.rc < s.build.cap → rc < s.build.cap) ∧
    ∀ (wc : Nat) (port : List PortInput) (rs : List Response),
      f { s with wc := wc, port := port, responses := rs } =
        .next { s with rc := rc, pos := pos, wc := wc, port := port, responses := rs ++ [x] }

theorem consumerEffect_raise (st : Status) (s : State) : ConsumerEffect (raise st) s :=
  ⟨s.rc, s.pos, ⟨st, 0⟩, id, fun _ _ _ => rfl⟩

theorem consumerEffect_execReadBits (n : BitVec 6) (s : State) : ConsumerEffect (execReadBits n) s := by
  cases hfault : readWidthOutOfRange s.build n.toNat with
  | true => exact ⟨s.rc, s.pos, ⟨.readWidthOutOfRange, 0⟩, id, fun _ _ _ => if_pos hfault⟩
  | false =>
    refine ⟨(s.consume n.toNat).rc, (s.consume n.toNat).pos, ⟨.ok, (readAccumulator s n.toNat).zeroExtend 64⟩,
      fun _ => mask_lt s.build _, fun wc port rs => ?_⟩
    have hread : readAccumulator { s with wc := wc, port := port, responses := rs } n.toNat =
        readAccumulator s n.toNat := by apply readAccumulator_congr <;> rfl
    rw [← hread]
    exact if_neg (ne_true_of_eq_false hfault)

theorem consumerEffect_rewind (bits : Word64) (s : State) : ConsumerEffect (rewind bits) s := by
  cases hfault : rewindUnderflow s bits with
  | true => exact ⟨s.rc, s.pos, ⟨.rewindUnderflow, 0⟩, id, fun _ _ _ => if_pos hfault⟩
  | false =>
    exact ⟨(s.unconsume bits).rc, (s.unconsume bits).pos, ⟨.ok, 0⟩, fun _ => maskInt_lt s.build _,
      fun _ _ _ => if_neg (ne_true_of_eq_false hfault)⟩

/-- Every command but INJECT_BYTE is a consumer command (R28). -/
theorem consumerEffect_exec {i : Instr} (hi : ∀ v, i ≠ .injectByte v) (s : State) : ConsumerEffect (exec i) s := by
  cases i with
  | injectByte v => exact absurd rfl (hi v)
  | readBits n => exact consumerEffect_execReadBits n s
  | readOneBit =>
    exact ⟨(s.consume 1).rc, (s.consume 1).pos, ⟨.ok, (s.slot s.rc).zeroExtend 64⟩, fun _ => mask_lt s.build _,
      fun _ _ _ => rfl⟩
  | position => exact ⟨s.rc, s.pos, ⟨.ok, s.pos⟩, id, fun _ _ _ => rfl⟩
  | rewindBits c => exact consumerEffect_rewind (bitCountOperand c) s
  | rewindBytes c => exact consumerEffect_rewind (byteCountOperand c) s

/-- An illegal word has a consumer's effect too: it is answered, and nothing moves (R144). -/
theorem consumerEffect_runWord {cw : CommandWord} (hcw : ∀ v, decode cw ≠ .command (.injectByte v)) (s : State) :
    ConsumerEffect (runWord cw) s := by
  cases hd : decode cw with
  | illegal why =>
    have hrun : runWord cw = raise .invalidCommand := funext fun u => runWord_illegal hd u
    exact hrun ▸ consumerEffect_raise .invalidCommand s
  | command i =>
    have hi : ∀ v, i ≠ .injectByte v := fun v hv => hcw v (hv ▸ hd)
    have hrun : runWord cw = exec i := funext fun u => runWord_command hd u
    exact hrun ▸ consumerEffect_exec hi s

/-- A consumer's effect, read off the state it happens in. -/
theorem ConsumerEffect.eq_next {f : State → Host.Outcome State Fault Refusal} {s t : State}
    (hf : ConsumerEffect f s) (h : f s = .next t) :
    ∃ (rc : Nat) (pos : Word64) (x : Response), (s.rc < s.build.cap → rc < s.build.cap) ∧
      t = { s with rc := rc, pos := pos, responses := s.responses ++ [x] } := by
  obtain ⟨rc, pos, x, hrc, heff⟩ := hf
  exact ⟨rc, pos, x, hrc, Host.Outcome.next.inj (h.symm.trans (heff s.wc s.port s.responses))⟩

/-- A command word injects a byte, or is another word and has a consumer's effect. -/
theorem runWord_cases {cw : CommandWord} {s t : State} (h : runWord cw s = .next t) :
    (∃ v, decode cw = .command (.injectByte v) ∧ t = (s.inject v).answered .ok 0) ∨
    (∀ v, decode cw ≠ .command (.injectByte v)) ∧
      ∃ (rc : Nat) (pos : Word64) (x : Response), (s.rc < s.build.cap → rc < s.build.cap) ∧
        t = { s with rc := rc, pos := pos, responses := s.responses ++ [x] } := by
  by_cases hcw : ∃ v, decode cw = .command (.injectByte v)
  · obtain ⟨v, hv⟩ := hcw
    rw [runWord_command hv, exec_injectByte] at h
    exact .inl ⟨v, hv, (Host.Outcome.next.inj h).symm⟩
  · have hother := not_exists.mp hcw
    exact .inr ⟨hother, (consumerEffect_runWord hother s).eq_next h⟩

/-- A step is idle, takes a reset assertion, or runs one command word. -/
theorem step_cases {s t : State} (h : step s = .next t) :
    (s.port = [] ∧ t = s) ∨
    (∃ rest, s.port = .reset :: rest ∧ t = State.assertReset { s with port := rest }) ∨
    ∃ cw rest, s.port = .command cw :: rest ∧ runWord cw { s with port := rest } = .next t := by
  cases hport : s.port with
  | nil =>
    rw [step_idle hport] at h
    exact .inl ⟨rfl, (Host.Outcome.next.inj h).symm⟩
  | cons input rest =>
    rw [step_input hport] at h
    cases input with
    | reset => exact .inr (.inl ⟨rest, rfl, (Host.Outcome.next.inj h).symm⟩)
    | command cw => exact .inr (.inr ⟨cw, rest, rfl, h⟩)

/-! ## The invariant -/

/-- The capacities are powers of two, so one of at least 8 is a multiple of 8. -/
theorem eight_dvd_cap {b : Build} (h : 8 ≤ b.cap) : 8 ∣ b.cap := by
  have hlog : 3 ≤ b.log2Cap.val := (Nat.pow_le_pow_iff_right (a := 2) (by decide)).mp h
  exact Nat.pow_dvd_pow 2 hlog

/-- The capacities are powers of two, so one below 8 divides 8. -/
theorem cap_dvd_eight {b : Build} (h : b.cap < 8) : b.cap ∣ 8 := by
  have hlog : b.log2Cap.val < 3 := (Nat.pow_lt_pow_iff_right (a := 2) (by decide)).mp h
  exact Nat.pow_dvd_pow 2 hlog.le

/-- Eight slots on from an aligned write cursor is aligned, also where it wraps. -/
theorem mask_add_eight_mod_eight {b : Build} {wc : Nat} (hcap : 8 ≤ b.cap) (hwc : wc % 8 = 0) :
    mask b (wc + 8) % 8 = 0 := by
  rw [mask, Nat.mod_mod_of_dvd _ (eight_dvd_cap hcap), Nat.add_mod_right, hwc]

/-- The invariant speaks of the build, the slots and the cursors only. -/
theorem State.Inv.of_frame {s t : State} (hs : s.Inv) (hbuild : t.build = s.build) (hstorage : t.storage = s.storage)
    (hwc : t.wc = s.wc) (hrc : t.rc < s.build.cap) : t.Inv := by
  obtain ⟨hwf, hlt, hwclt, -, haligned, hsmall⟩ := hs
  constructor <;> simp only [hbuild, hstorage, hwc] <;> assumption

theorem State.inv_resetOf (b : Build) : (State.resetOf b).Inv where
  storage_wf := ⟨List.Pairwise.nil, by simp⟩
  storage_lt := by simp
  wc_lt := cap_pos b
  rc_lt := cap_pos b
  wc_aligned _ := rfl
  wc_small _ := rfl

theorem State.Inv.inject {s : State} (hs : s.Inv) (v : Byte) : (s.inject v).Inv where
  storage_wf := storeBits_wf s.build s.wc v hs.storage_wf 8
  storage_lt := storeBits_lt s.build s.wc v hs.storage_lt 8
  wc_lt := mask_lt s.build (s.wc + 8)
  rc_lt := hs.rc_lt
  wc_aligned hcap := mask_add_eight_mod_eight hcap (hs.wc_aligned hcap)
  wc_small hcap := by
    simp only [State.inject_build, State.inject_wc, mask] at hcap ⊢
    rw [hs.wc_small hcap]
    exact Nat.mod_eq_zero_of_dvd (by simpa using cap_dvd_eight hcap)

theorem runWord_inv {cw : CommandWord} {s t : State} (hs : s.Inv) (h : runWord cw s = .next t) : t.Inv := by
  obtain ⟨v, -, rfl⟩ | ⟨-, rc, pos, x, hrc, rfl⟩ := runWord_cases h
  · exact (hs.inject v).of_frame rfl rfl rfl hs.rc_lt
  · exact hs.of_frame rfl rfl rfl (hrc hs.rc_lt)

/-- Settles O31: an idle step changes nothing, a reset starts over, INJECT_BYTE writes masked slots and moves `WC` by 8
modulo a power of two, and every other word moves `RC` within its range. -/
theorem stepKeepsInvariant : Obligations.StepKeepsInvariant := by
  intro s t hs h
  obtain ⟨-, rfl⟩ | ⟨rest, -, rfl⟩ | ⟨cw, rest, -, hrun⟩ := step_cases h
  · exact hs
  · exact (State.inv_resetOf s.build).of_frame rfl rfl rfl (cap_pos s.build)
  · have hport : State.Inv { s with port := rest } := hs.of_frame rfl rfl rfl hs.rc_lt
    exact runWord_inv hport hrun

/-- Settles O32. -/
theorem resetMeetsInvariant : Obligations.ResetMeetsInvariant := State.inv_resetOf

/-! ## INJECT_BYTE in a buffer of at least eight slots -/

/-- An aligned write cursor has room for a byte before the physical end (R29). -/
theorem State.Inv.wc_add_eight_le_cap {s : State} (hs : s.Inv) (hcap : 8 ≤ s.build.cap) :
    s.wc + 8 ≤ s.build.cap := by
  have hlt := hs.wc_lt
  have hwc := hs.wc_aligned hcap
  obtain ⟨m, hm⟩ := eight_dvd_cap hcap
  omega

/-- One bit cut out of a byte is that bit. -/
theorem extractLsb'_one_eq_ofBool (v : Byte) (i : Nat) : v.extractLsb' i 1 = BitVec.ofBool (v.getLsbD i) := by
  ext j hj
  obtain rfl : j = 0 := by omega
  simp

/-- Where the slots from `WC` on do not cross the physical end, the writes go to `WC`, `WC + 1`, and so on. -/
theorem read_storeBits_of_add_le_cap {b : Build} {wc k i : Nat} (v : Byte) {m : Memory} (hm : m.wf)
    (hcap : wc + k ≤ b.cap) (hi : i < k) :
    (storeBits b wc v k m).read (wc + i) = BitVec.ofBool (v.getLsbD (7 - i)) := by
  have hmask : ∀ j < k, mask b (wc + j) = wc + j := fun j hj => mask_eq_self (by omega)
  have hlast : ∀ j < k, i < j → mask b (wc + j) ≠ mask b (wc + i) := fun j hj hij => by
    rw [hmask j hj, hmask i hi]
    omega
  rw [← extractLsb'_one_eq_ofBool, ← read_storeBits_last b wc v hm k hi hlast, hmask i hi]

/-- Settles O17: `WC` and CAP are multiples of 8, so `WC + 8` is at most CAP, and the writes are to distinct slots. -/
theorem injectByteStaysInsideTheBuffer : Obligations.InjectByteStaysInsideTheBuffer := by
  intro v s hs hcap
  have hroom := hs.wc_add_eight_le_cap hcap
  refine ⟨hroom, _, exec_injectByte v s, fun i hi => ?_, ?_⟩
  · exact read_storeBits_of_add_le_cap v hs.storage_wf hroom hi
  · simp only [State.answered_wc, State.inject_wc]
    split_ifs with hend
    · rw [hend, mask, Nat.mod_self]
    · exact mask_eq_self (by omega)

/-! ## What is left unchanged -/

theorem step_build {s t : State} (h : step s = .next t) : t.build = s.build := by
  obtain ⟨-, rfl⟩ | ⟨rest, -, rfl⟩ | ⟨cw, rest, -, hrun⟩ := step_cases h
  · rfl
  · rfl
  · obtain ⟨v, -, rfl⟩ | ⟨-, rc, pos, x, -, rfl⟩ := runWord_cases hrun <;> rfl

/-- Settles O33, by induction on the number of steps. -/
theorem buildNeverChanges : Obligations.BuildNeverChanges := by
  intro k
  induction k with
  | zero =>
    intro s t h
    rw [← Host.Outcome.next.inj h]
  | succ k ih =>
    intro s t h
    obtain ⟨u, hfirst, hrest⟩ := andThen_eq_next h
    exact (ih u t hrest).trans (step_build hfirst)

/-- Settles O34: such a word has a consumer's effect. -/
theorem onlyInjectByteWritesStorage : Obligations.OnlyInjectByteWritesStorage := by
  intro cw s t hcw h
  obtain ⟨rc, pos, x, -, rfl⟩ := (consumerEffect_runWord hcw s).eq_next h
  exact ⟨fun _ => rfl, rfl, rfl, rfl, rfl⟩

/-! ## What nothing depends on -/

/-- Settles O35: a consumer's effect is one for every `WC`, and `RC` and `POS` do not occur in what INJECT_BYTE does. -/
theorem cursorsAreIndependent : Obligations.CursorsAreIndependent := by
  refine ⟨fun i s t w hi h => ?_, fun v s t r p h => ?_⟩
  · obtain ⟨rc, pos, x, -, heff⟩ := consumerEffect_exec hi s
    obtain rfl := Host.Outcome.next.inj (h.symm.trans (heff s.wc s.port s.responses))
    exact heff w s.port s.responses
  · obtain rfl := Host.Outcome.next.inj h
    rfl

/-- A command word ends in one state with one more response, whatever was delivered before. -/
theorem runWord_responses (cw : CommandWord) (s : State) :
    ∃ (u : State) (x : Response), ∀ rs,
      runWord cw { s with responses := rs } = .next { u with responses := rs ++ [x] } := by
  by_cases hcw : ∃ v, decode cw = .command (.injectByte v)
  · obtain ⟨v, hv⟩ := hcw
    exact ⟨s.inject v, ⟨.ok, 0⟩, fun rs => runWord_command hv _⟩
  · obtain ⟨rc, pos, x, -, heff⟩ := consumerEffect_runWord (not_exists.mp hcw) s
    exact ⟨{ s with rc := rc, pos := pos }, x, fun rs => heff s.wc s.port rs⟩

/-- A step ends in one state with the same new responses, whatever was delivered before. -/
theorem step_responses (s : State) :
    ∃ (u : State) (new : List Response),
      ∀ rs, step { s with responses := rs } = .next { u with responses := rs ++ new } := by
  cases s.port with
  | nil => exact ⟨{ s with port := [] }, [], fun rs => by rw [List.append_nil]; rfl⟩
  | cons input rest =>
    cases input with
    | reset => exact ⟨State.assertReset { s with port := rest }, [], fun rs => by rw [List.append_nil]; rfl⟩
    | command cw =>
      obtain ⟨u, x, hrun⟩ := runWord_responses cw { s with port := rest }
      exact ⟨u, [x], hrun⟩

/-- Settles O36: the step does the same and appends the same for the responses the state holds and for any others. -/
theorem responsesAreNotState : Obligations.ResponsesAreNotState := by
  intro s t rs h
  obtain ⟨u, new, hstep⟩ := step_responses s
  obtain rfl := Host.Outcome.next.inj (h.symm.trans (hstep s.responses))
  exact ⟨new, rfl, hstep rs⟩

end Sys2Proof.Machine
end

section
/-! PROOFS. The round trip through the buffer (R55, R170, E1): the bytes injected and not yet read are a queue, which
INJECT_BYTE lengthens and READ_BITS 8 shortens. -/

namespace Sys2Proof.Machine

/-! ## Commands in a row -/

@[simp] theorem execAll_nil (s : State) : execAll [] s = .next s := rfl

@[simp] theorem execAll_cons (i : Instr) (is : List Instr) (s : State) :
    execAll (i :: is) s = andThen (exec i s) (execAll is) := rfl

theorem execAll_append_of_eq_next {is : List Instr} {s t : State} (h : execAll is s = .next t) (js : List Instr) :
    execAll (is ++ js) s = execAll js t := by
  induction is generalizing s with
  | nil => rw [← Host.Outcome.next.inj h, List.nil_append]
  | cons i is ih =>
    obtain ⟨u, hfirst, hrest⟩ := andThen_eq_next h
    rw [List.cons_append, execAll_cons, hfirst, andThen_next, ih hrest]

/-! ## A byte in eight slots -/

/-- The indices of a window of at most CAP slots are distinct slots, also where it wraps (R6). -/
theorem mask_add_inj {b : Build} {n i j : Nat} (hi : i < b.cap) (hj : j < b.cap)
    (h : mask b (n + i) = mask b (n + j)) : i = j := by
  have hmod : i ≡ j [MOD b.cap] := Nat.ModEq.add_left_cancel' n h
  exact hmod.eq_of_lt_of_lt hi hj

/-- The eight slots from `start` on, wrapping at the physical end, hold the byte, most significant bit first (R43). -/
def State.HoldsByte (s : State) (start : Nat) (v : Byte) : Prop :=
  ∀ i < 8, s.slot (mask s.build (start + i)) = v.extractLsb' (7 - i) 1

theorem State.holdsByte_mask {s : State} {start : Nat} {v : Byte} :
    s.HoldsByte (mask s.build start) v ↔ s.HoldsByte start v := by
  simp only [State.HoldsByte, mask_mask_add]

/-- Where CAP is at least 8, no write of INJECT_BYTE overwrites another of the same byte. -/
theorem State.holdsByte_inject_self {s : State} (hs : s.storage.wf) (hcap : 8 ≤ s.build.cap) (v : Byte) :
    (s.inject v).HoldsByte s.wc v := fun i hi =>
  read_storeBits_last s.build s.wc v hs 8 hi fun j hj hij hsame =>
    hij.ne' (mask_add_inj (by omega) (by omega) hsame)

/-- A byte in slots that INJECT_BYTE does not write stays. -/
theorem State.HoldsByte.inject {s : State} {start : Nat} {v : Byte} (h : s.HoldsByte start v) (w : Byte)
    (hne : ∀ i < 8, ∀ j < 8, mask s.build (start + i) ≠ mask s.build (s.wc + j)) :
    (s.inject w).HoldsByte start v := fun i hi =>
  (read_storeBits_other s.build s.wc w s.storage 8 (hne i hi)).trans (h i hi)

/-- One more bit of a byte shifted in from the right. -/
theorem shiftLeft_or_nextBit (v : Byte) {k : Nat} (hk : k < 8) :
    ((v >>> (8 - k)).zeroExtend 32 <<< 1) ||| (v.extractLsb' (7 - k) 1).zeroExtend 32 =
      (v >>> (8 - (k + 1))).zeroExtend 32 := by
  ext j hj
  cases j with
  | zero =>
    have hbit : 7 - k < 32 := by omega
    simp [show 8 - (k + 1) = 7 - k by omega, hbit]
  | succ j => simp [show 8 - k + j = 8 - (k + 1) + (j + 1) by omega]

/-- After `k` of the eight slots the accumulator is the byte's top `k` bits (R44, R90). -/
theorem readAccumulator_of_holdsByte {s : State} {v : Byte} (h : s.HoldsByte s.rc v) {k : Nat} (hk : k ≤ 8) :
    readAccumulator s k = (v >>> (8 - k)).zeroExtend 32 := by
  induction k with
  | zero =>
    rw [readAccumulator, BitVec.ushiftRight_eq_zero le_rfl]
    rfl
  | succ k ih => rw [readAccumulator, ih (by omega), h k (by omega), shiftLeft_or_nextBit v (by omega)]

/-- Eight bits are no width fault in either mode (R145). -/
theorem exec_readBits_eight {s : State} {v : Byte} (h : s.HoldsByte s.rc v) :
    exec (.readBits 8#6) s = .next ((s.consume 8).answered .ok (v.zeroExtend 64)) := by
  have hwidth : readWidthOutOfRange s.build 8 = false := Bool.and_false _
  obtain ⟨hfault, -⟩ | ⟨-, hread⟩ := execReadBits_cases 8#6 s
  · exact absurd hfault (ne_true_of_eq_false hwidth)
  · have hbyte : (readAccumulator s 8).zeroExtend 64 = v.zeroExtend 64 := by
      rw [readAccumulator_of_holdsByte h le_rfl]
      simp
    rw [← hbyte]
    exact hread

/-! ## The queue of unread bytes -/

/-- The bytes injected and not yet read, oldest first: they stand from `RC` on, and `WC` is behind the last. -/
structure Unread (s : State) (bytes : List Byte) : Prop where
  storage_wf : s.storage.wf
  rc_lt : s.rc < s.build.cap
  wc_eq : s.wc = mask s.build (s.rc + 8 * bytes.length)
  slots : ∀ k (h : k < bytes.length), s.HoldsByte (s.rc + 8 * k) bytes[k]

theorem unread_nil_iff {s : State} : Unread s [] ↔ s.storage.wf ∧ s.rc < s.build.cap ∧ s.wc = s.rc := by
  constructor
  · rintro ⟨hwf, hrc, hwc, -⟩
    exact ⟨hwf, hrc, hwc.trans (mask_eq_self hrc)⟩
  · rintro ⟨hwf, hrc, hwc⟩
    exact ⟨hwf, hrc, hwc.trans (mask_eq_self hrc).symm, fun k h => absurd h (Nat.not_lt_zero k)⟩

theorem Unread.answered {s : State} {bytes : List Byte} (h : Unread s bytes) (st : Status) (r : Word64) :
    Unread (s.answered st r) bytes :=
  ⟨h.storage_wf, h.rc_lt, h.wc_eq, h.slots⟩

/-- While the queue has room, INJECT_BYTE puts a byte at its end: the slots it writes hold no unread byte. -/
theorem Unread.inject {s : State} {bytes : List Byte} (h : Unread s bytes)
    (hroom : 8 * (bytes.length + 1) ≤ s.build.cap) (v : Byte) : Unread (s.inject v) (bytes ++ [v]) where
  storage_wf := storeBits_wf s.build s.wc v h.storage_wf 8
  rc_lt := h.rc_lt
  wc_eq := by
    rw [List.length_append, List.length_singleton, State.inject_wc, h.wc_eq, mask_mask_add]
    rfl
  slots k hk := by
    have hself := State.holdsByte_inject_self h.storage_wf (by omega) v
    rw [h.wc_eq] at hself
    rw [List.getElem_append]
    split
    case isTrue hold =>
      refine (h.slots k hold).inject v fun i hi j hj hsame => ?_
      rw [h.wc_eq, mask_mask_add, Nat.add_assoc, Nat.add_assoc] at hsame
      have := mask_add_inj (by omega) (by omega) hsame
      omega
    case isFalse hnew =>
      obtain rfl : k = bytes.length := by simp at hk; omega
      simpa using State.holdsByte_mask.mp hself

/-- READ_BITS 8 takes the first byte off the queue. -/
theorem Unread.consume {s : State} {v : Byte} {bytes : List Byte} (h : Unread s (v :: bytes)) :
    Unread (s.consume 8) bytes where
  storage_wf := h.storage_wf
  rc_lt := mask_lt s.build _
  wc_eq := by
    rw [State.consume_wc, h.wc_eq, State.consume_build, State.consume_rc, mask_mask_add, List.length_cons]
    congr 1
    omega
  slots k hk i hi := by
    have hslot := h.slots (k + 1) (by simpa using hk) i hi
    rw [State.consume_build, State.consume_rc, Nat.add_assoc, mask_mask_add]
    rwa [show s.rc + 8 * (k + 1) + i = s.rc + 8 + (8 * k + i) by omega] at hslot

theorem Unread.holdsByte_rc {s : State} {v : Byte} {bytes : List Byte} (h : Unread s (v :: bytes)) :
    s.HoldsByte s.rc v := h.slots 0 (Nat.zero_lt_succ _)

/-- The bytes of a list, injected one after another, go to the queue's end in their order. -/
theorem Unread.execAll_injectBytes {s : State} {bytes : List Byte} (h : Unread s bytes) (new : List Byte)
    (hroom : 8 * (bytes.length + new.length) ≤ s.build.cap) :
    ∃ t, execAll (new.map .injectByte) s = .next t ∧ Unread t (bytes ++ new) ∧
      t.responses = s.responses ++ List.replicate new.length ⟨.ok, 0#64⟩ := by
  induction new generalizing s bytes with
  | nil => exact ⟨s, rfl, by simpa using h, by simp⟩
  | cons v new ih =>
    rw [List.length_cons] at hroom
    have hpushed := (h.inject (by omega) v).answered .ok 0
    obtain ⟨t, hrun, hunread, hresponses⟩ := ih hpushed (by simp; omega)
    refine ⟨t, ?_, by simpa using hunread, by simpa [List.replicate_succ] using hresponses⟩
    rw [List.map_cons, execAll_cons, exec_injectByte, andThen_next, hrun]

/-- Reading eight bits as often as there are unread bytes answers them in their order and empties the queue. -/
theorem Unread.execAll_readBytes {s : State} {bytes : List Byte} (h : Unread s bytes) :
    ∃ t, execAll (List.replicate bytes.length (.readBits 8#6)) s = .next t ∧ Unread t [] ∧
      t.responses = s.responses ++ bytes.map fun v => ⟨.ok, v.zeroExtend 64⟩ := by
  induction bytes generalizing s with
  | nil => exact ⟨s, rfl, h, by simp⟩
  | cons v bytes ih =>
    obtain ⟨t, hrun, hunread, hresponses⟩ := ih (h.consume.answered .ok (v.zeroExtend 64))
    refine ⟨t, ?_, hunread, by simpa using hresponses⟩
    rw [List.length_cons, List.replicate_succ, execAll_cons, exec_readBits_eight h.holdsByte_rc, andThen_next, hrun]

/-! ## The round trip -/

/-- The round trip, with the cursors equal again at its end. -/
theorem execAll_roundTrip {s : State} (hs : s.Inv) (hcursors : s.rc = s.wc) {bytes : List Byte}
    (hroom : 8 * bytes.length ≤ s.build.cap) :
    ∃ t, execAll (bytes.map .injectByte ++ List.replicate bytes.length (.readBits 8#6)) s = .next t ∧
      t.responses = s.responses ++ List.replicate bytes.length ⟨.ok, 0#64⟩ ++
        (bytes.map fun v => ⟨.ok, v.zeroExtend 64⟩) ∧ t.rc = t.wc := by
  have hempty : Unread s [] := unread_nil_iff.mpr ⟨hs.storage_wf, hs.rc_lt, hcursors.symm⟩
  obtain ⟨u, hinject, hunread, hinjected⟩ := hempty.execAll_injectBytes bytes (by simpa using hroom)
  obtain ⟨t, hread, hdone, hanswered⟩ := Unread.execAll_readBytes hunread
  obtain ⟨-, -, hwc⟩ := unread_nil_iff.mp hdone
  refine ⟨t, (execAll_append_of_eq_next hinject _).trans hread, ?_, hwc.symm⟩
  rw [hanswered, hinjected, List.nil_append]

/-- Settles O42: the injected bytes are the queue, and the reads take it off in order. -/
theorem injectedBytesComeBackInOrder : Obligations.InjectedBytesComeBackInOrder := by
  intro bytes s hs hcursors hroom
  obtain ⟨t, hrun, hresponses, -⟩ := execAll_roundTrip hs hcursors hroom
  exact ⟨t, hrun, hresponses⟩

/-- Settles O41: the round trip of one byte. -/
theorem injectedByteIsReadBackAtOnce : Obligations.InjectedByteIsReadBackAtOnce := by
  intro v s hs hcap hcursors
  obtain ⟨t, hrun, hresponses, hequal⟩ := execAll_roundTrip (bytes := [v]) hs hcursors hcap
  exact ⟨t, hrun, by simpa using hresponses, hequal⟩

end Sys2Proof.Machine
end

section
/-! PROOFS. The encoding (spec/30_encoding.md): a word is its opcode and its argument (R61), a command's argument is its
operand, and the decoder, the match/mask table and the assembler agree on both. -/

namespace Sys2Proof
open Laws.OpcodeField (opcode)

/-! ## A word as an opcode and an argument -/

/-- The operand of a command as a number, 0 where it has none. -/
def operand : Instr → Nat
  | .injectByte value => value.toNat
  | .readBits n => n.toNat
  | .readOneBit => 0
  | .position => 0
  | .rewindBits count => count.toNat
  | .rewindBytes count => count.toNat

theorem operand_lt (i : Instr) : operand i < 2 ^ 60 := by
  cases i with
  | injectByte v => exact v.isLt.trans (by decide)
  | readBits n => exact n.isLt.trans (by decide)
  | readOneBit => decide
  | position => decide
  | rewindBits c => exact c.isLt
  | rewindBytes c => exact c.isLt

theorem encode_toNat (i : Instr) : (encode i).toNat = opcode i * 2 ^ 60 + operand i := by
  cases i with
  | injectByte v => exact encode_injectByte_toNat v
  | readBits n => exact encode_readBits_toNat n
  | readOneBit => exact encode_readOneBit_toNat
  | position => exact encode_position_toNat
  | rewindBits c => exact encode_rewindBits_toNat c
  | rewindBytes c => exact encode_rewindBytes_toNat c

theorem encode_eq_iff {i : Instr} {cw : CommandWord} :
    encode i = cw ↔ cw.toNat / 2 ^ 60 = opcode i ∧ cw.toNat % 2 ^ 60 = operand i := by
  have hlt := operand_lt i
  rw [← BitVec.toNat_inj, encode_toNat]
  omega

/-! ## The decoder -/

/-- The reserved bits, from bit `lo` to bit 59, are zero exactly when the argument fits in the bits below them. -/
theorem reservedField_eq_zero_iff (cw : CommandWord) {lo : Nat} (hlo : lo ≤ 59) :
    cw.extractLsb 59 lo = 0 ↔ cw.toNat % 2 ^ 60 < 2 ^ lo := by
  have hwidth : lo + (59 - lo + 1) = 60 := by omega
  have hfield : (cw.extractLsb 59 lo).toNat = cw.toNat % 2 ^ 60 / 2 ^ lo := by
    rw [BitVec.extractLsb_toNat, Nat.shiftRight_eq_div_pow, ← Nat.mod_mul_right_div_self, ← Nat.pow_add, hwidth]
  rw [← BitVec.toNat_inj, hfield]
  exact Nat.div_eq_zero_iff_lt (Nat.two_pow_pos lo)

/-- The operand's field, from bit 0 to bit `hi`, is the argument where that fits in it. -/
theorem operandField_toNat {cw : CommandWord} {hi : Nat} (hhi : hi ≤ 59) (hfits : cw.toNat % 2 ^ 60 < 2 ^ (hi + 1)) :
    (cw.extractLsb hi 0).toNat = cw.toNat % 2 ^ 60 := by
  have hdvd : 2 ^ (hi + 1) ∣ 2 ^ 60 := Nat.pow_dvd_pow 2 (by omega)
  rw [BitVec.extractLsb_toNat, Nat.shiftRight_zero, Nat.sub_zero, ← Nat.mod_mod_of_dvd _ hdvd]
  exact Nat.mod_eq_of_lt hfits

theorem operandField_eq {cw : CommandWord} {hi : Nat} {v : BitVec (hi + 1)} (hhi : hi ≤ 59)
    (harg : cw.toNat % 2 ^ 60 = v.toNat) : cw.extractLsb hi 0 = v :=
  BitVec.eq_of_toNat_eq ((operandField_toNat hhi (harg ▸ v.isLt)).trans harg)

/-- What R65 calls an illegal word, by its opcode and its argument. -/
def IllegalFields (op arg : Nat) : Prop :=
  op = 0 ∨ 7 ≤ op ∨ (op = 1 ∧ 2 ^ 8 ≤ arg) ∨ (op = 2 ∧ 2 ^ 6 ≤ arg) ∨ (op = 3 ∧ arg ≠ 0) ∨ (op = 4 ∧ arg ≠ 0)

theorem not_illegalFields (i : Instr) : ¬IllegalFields (opcode i) (operand i) := by
  cases i with
  | injectByte v => have := v.isLt; simp only [IllegalFields, opcode, operand]; omega
  | readBits n => have := n.isLt; simp only [IllegalFields, opcode, operand]; omega
  | readOneBit => simp [IllegalFields, opcode, operand]
  | position => simp [IllegalFields, opcode, operand]
  | rewindBits c => simp [IllegalFields, opcode]
  | rewindBytes c => simp [IllegalFields, opcode]

/-- `d` is a reading of the word `cw`: as the command whose encoding it is, or as illegal where R65 says so. -/
def Reads (cw : CommandWord) (d : Decoded) : Prop :=
  (∃ i, d = .command i ∧ encode i = cw) ∨
    (∃ why, d = .illegal why) ∧ IllegalFields (cw.toNat / 2 ^ 60) (cw.toNat % 2 ^ 60)

theorem reads_command {cw : CommandWord} {i : Instr} (hop : cw.toNat / 2 ^ 60 = opcode i)
    (harg : cw.toNat % 2 ^ 60 = operand i) : Reads cw (.command i) :=
  .inl ⟨i, rfl, encode_eq_iff.mpr ⟨hop, harg⟩⟩

theorem withReservedZero_of_lt {cw : CommandWord} {lo : Nat} (hlo : lo ≤ 59) (h : cw.toNat % 2 ^ 60 < 2 ^ lo)
    (i : Instr) : withReservedZero (cw.extractLsb 59 lo) i = .command i :=
  if_pos ((reservedField_eq_zero_iff cw hlo).mpr h)

theorem withReservedZero_of_le {cw : CommandWord} {lo : Nat} (hlo : lo ≤ 59) (h : 2 ^ lo ≤ cw.toNat % 2 ^ 60)
    (i : Instr) : withReservedZero (cw.extractLsb 59 lo) i = .illegal .reservedBit :=
  if_neg (mt (reservedField_eq_zero_iff cw hlo).mp h.not_gt)

theorem reads_withReservedZero {cw : CommandWord} {lo : Nat} (hlo : lo ≤ 59) {i : Instr}
    (hop : cw.toNat / 2 ^ 60 = opcode i)
    (hlegal : cw.toNat % 2 ^ 60 < 2 ^ lo → cw.toNat % 2 ^ 60 = operand i)
    (hillegal : 2 ^ lo ≤ cw.toNat % 2 ^ 60 → IllegalFields (cw.toNat / 2 ^ 60) (cw.toNat % 2 ^ 60)) :
    Reads cw (withReservedZero (cw.extractLsb 59 lo) i) := by
  obtain hfits | hreserved := lt_or_ge (cw.toNat % 2 ^ 60) (2 ^ lo)
  · rw [withReservedZero_of_lt hlo hfits]
    exact reads_command hop (hlegal hfits)
  · rw [withReservedZero_of_le hlo hreserved]
    exact .inr ⟨⟨.reservedBit, rfl⟩, hillegal hreserved⟩

theorem reads_decode (cw : CommandWord) : Reads cw (decode cw) := by
  unfold decode
  rw [opField_toNat]
  split
  case h_1 hop | h_2 hop =>
    refine reads_withReservedZero (by decide) hop (fun hfits => (operandField_toNat (by decide) hfits).symm) fun _ => ?_
    unfold IllegalFields
    omega
  case h_3 hop | h_4 hop =>
    refine reads_withReservedZero (by decide) hop Nat.lt_one_iff.mp fun _ => ?_
    unfold IllegalFields
    omega
  case h_5 hop | h_6 hop => exact reads_command hop (operandField_toNat (by decide) (Nat.mod_lt _ (by decide))).symm
  case h_7 =>
    refine .inr ⟨⟨.opcode, rfl⟩, ?_⟩
    unfold IllegalFields
    grind

/-- Settles O2: the opcode of the word selects the command's format, the operand fills the operand's field, and above it
the argument has only zeros. -/
theorem decodeOfEncodeIsTheCommand : Obligations.DecodeOfEncodeIsTheCommand := by
  intro i
  obtain ⟨hop, harg⟩ := encode_eq_iff.mp (rfl : encode i = encode i)
  rw [decode, opField_toNat, hop]
  cases i with
  | injectByte v =>
    have hfield : (encode (.injectByte v)).extractLsb 7 0 = v := operandField_eq (by decide) harg
    rw [hfield]
    exact withReservedZero_of_lt (by decide) (harg ▸ v.isLt) _
  | readBits n =>
    have hfield : (encode (.readBits n)).extractLsb 5 0 = n := operandField_eq (by decide) harg
    rw [hfield]
    exact withReservedZero_of_lt (by decide) (harg ▸ n.isLt) _
  | readOneBit => rfl
  | position => rfl
  | rewindBits c => exact congrArg (Decoded.command ∘ .rewindBits) (operandField_eq (hi := 59) le_rfl harg)
  | rewindBytes c => exact congrArg (Decoded.command ∘ .rewindBytes) (operandField_eq (hi := 59) le_rfl harg)

/-- Settles O3. -/
theorem decodedWordIsItsEncoding : Obligations.DecodedWordIsItsEncoding := by
  intro cw i h
  obtain ⟨j, hj, hword⟩ | ⟨⟨why, hwhy⟩, -⟩ := reads_decode cw
  · rwa [← Decoded.command.inj (hj.symm.trans h)]
  · cases hwhy.symm.trans h

theorem decode_eq_command_iff {cw : CommandWord} {i : Instr} : decode cw = .command i ↔ encode i = cw :=
  ⟨decodedWordIsItsEncoding cw i, fun h => h ▸ decodeOfEncodeIsTheCommand i⟩

theorem exists_decode_eq_illegal_iff (cw : CommandWord) :
    (∃ why, decode cw = .illegal why) ↔ IllegalFields (cw.toNat / 2 ^ 60) (cw.toNat % 2 ^ 60) := by
  obtain ⟨i, hi, hword⟩ | ⟨hillegal, hfields⟩ := reads_decode cw
  · obtain ⟨hop, harg⟩ := encode_eq_iff.mp hword
    rw [hi, hop, harg]
    simp [not_illegalFields i]
  · exact iff_of_true hillegal hfields

/-- Settles O6: of the two readings of a word, the one as illegal is R65's; the step then raises INVALID_COMMAND. -/
theorem illegalWordIsRefused : Obligations.IllegalWordIsRefused := by
  refine ⟨exists_decode_eq_illegal_iff, fun s cw rest why hport hdecode => ?_⟩
  rw [Machine.step_input hport]
  exact Machine.runWord_illegal hdecode _

/-! ## The match/mask table -/

/-- The words that match in the bits above the lowest `w` are those with any low bits below them. -/
theorem and_highBits_eq_iff {m w : Nat} (hi : BitVec m) (x : BitVec (m + w)) :
    x &&& (BitVec.allOnes m ++ 0#w) = hi ++ 0#w ↔ ∃ v : BitVec w, hi ++ v = x := by
  constructor
  · intro h
    rw [← BitVec.extractLsb'_append_extractLsb' (x := x), BitVec.and_append, BitVec.and_allOnes, BitVec.and_zero,
      BitVec.append_left_inj] at h
    exact ⟨x.extractLsb' 0 w, h ▸ BitVec.extractLsb'_append_extractLsb'⟩
  · rintro ⟨v, rfl⟩
    rw [BitVec.and_append, BitVec.and_allOnes, BitVec.and_zero]

theorem and_allOnes_eq_iff {w : Nat} (v x : BitVec w) : x &&& BitVec.allOnes w = v ↔ v = x := by
  rw [BitVec.and_allOnes, eq_comm]

/-- The commands, as their formats' operands (R62). -/
theorem Instr.exists_iff {p : Instr → Prop} :
    (∃ i, p i) ↔ (∃ v, p (.injectByte v)) ∨ (∃ n, p (.readBits n)) ∨ p .readOneBit ∨ p .position ∨
      (∃ c, p (.rewindBits c)) ∨ ∃ c, p (.rewindBytes c) := by
  constructor
  · rintro ⟨i, hi⟩
    cases i with
    | injectByte v => exact .inl ⟨v, hi⟩
    | readBits n => exact .inr (.inl ⟨n, hi⟩)
    | readOneBit => exact .inr (.inr (.inl hi))
    | position => exact .inr (.inr (.inr (.inl hi)))
    | rewindBits c => exact .inr (.inr (.inr (.inr (.inl ⟨c, hi⟩))))
    | rewindBytes c => exact .inr (.inr (.inr (.inr (.inr ⟨c, hi⟩))))
  · rintro (⟨v, h⟩ | ⟨n, h⟩ | h | h | ⟨c, h⟩ | ⟨c, h⟩) <;> exact ⟨_, h⟩

/-- Settles O4: the words that match a row in the bits of its mask are the row's high bits with any operand below them,
and those are the encodings of the row's mnemonic. -/
theorem decoderAgreesWithOpcodeTable : Obligations.DecoderAgreesWithOpcodeTable := by
  intro cw row hrow
  simp only [decode_eq_command_iff, OpcodeRow.admits, beq_iff_eq]
  simp only [opcodeTable, List.mem_cons, List.not_mem_nil, or_false] at hrow
  obtain rfl | rfl | rfl | rfl | rfl | rfl := hrow <;>
    simp only [Instr.exists_iff, Instr.mnemonic, String.reduceEq, and_true, and_false, exists_const, or_self, or_false,
      false_or]
  · exact and_highBits_eq_iff (w := 8) (0x1#4 ++ 0#52) cw
  · exact and_highBits_eq_iff (w := 6) (0x2#4 ++ 0#54) cw
  · exact and_allOnes_eq_iff (encode .readOneBit) cw
  · exact and_allOnes_eq_iff (encode .position) cw
  · exact and_highBits_eq_iff (w := 60) 0x5#4 cw
  · exact and_highBits_eq_iff (w := 60) 0x6#4 cw

/-- Settles O5: a word of two rows would decode to a command of both their mnemonics, and the rows' mnemonics differ. -/
theorem opcodeRowsAreDisjoint : Obligations.OpcodeRowsAreDisjoint := by
  have hnames : opcodeTable.Pairwise fun a b => a.mnemonic ≠ b.mnemonic := by decide
  refine hnames.imp_of_mem fun {a b} ha hb hne cw h => hne ?_
  obtain ⟨i, hi, hia⟩ := (decoderAgreesWithOpcodeTable cw a ha).mp h.1
  obtain ⟨j, hj, hjb⟩ := (decoderAgreesWithOpcodeTable cw b hb).mp h.2
  rw [← hia, ← hjb, Decoded.command.inj (hi.symm.trans hj)]

/-! ## The assembler -/

/-- ORing a number below `2 ^ w` into the match value puts it in the lowest `w` bits. -/
theorem or_lowBits_eq_append {m w : Nat} (hi : BitVec m) {v : Nat} (hv : v < 2 ^ w) :
    (hi ++ 0#w) ||| BitVec.ofNat (m + w) v = hi ++ BitVec.ofNat w v := by
  have hlow : BitVec.ofNat (m + w) v = 0#m ++ BitVec.ofNat w v := by
    have hle : 2 ^ w ≤ 2 ^ (m + w) := Nat.pow_le_pow_right (by decide) (by omega)
    apply BitVec.eq_of_toNat_eq
    simp [Nat.mod_eq_of_lt hv, Nat.mod_eq_of_lt (hv.trans_le hle)]
  rw [hlow, BitVec.or_append, BitVec.or_zero, BitVec.zero_or]

theorem word_eq_encode_instr {c : AsmCore} (h : c.inRange = true) : c.word = encode c.instr := by
  cases c with
  | injectByte v => exact or_lowBits_eq_append (w := 8) (0x1#4 ++ 0#52) (Nat.lt_succ_of_le (of_decide_eq_true h))
  | readBits n => exact or_lowBits_eq_append (w := 6) (0x2#4 ++ 0#54) (Nat.lt_succ_of_le (of_decide_eq_true h))
  | readOneBit => rfl
  | position => rfl
  | rewindBits c => exact or_lowBits_eq_append (w := 60) 0x5#4 (of_decide_eq_true h)
  | rewindBytes c => exact or_lowBits_eq_append (w := 60) 0x6#4 (of_decide_eq_true h)

/-- A line whose operands are all in range assembles to the encodings of its expansion's commands. -/
theorem assemble_of_wellFormed {l : AsmLine} (h : l.wellFormed = true) :
    assemble l = some (l.expand.map fun c => encode c.instr) := by
  rw [assemble, if_pos h]
  exact congrArg some (List.map_congr_left fun c hc => word_eq_encode_instr (List.all_eq_true.mp h c hc))

theorem assemble_of_not_wellFormed {l : AsmLine} (h : l.wellFormed = false) : assemble l = none :=
  if_neg (ne_true_of_eq_false h)

theorem wellFormed_core (c : AsmCore) : (AsmLine.core c).wellFormed = c.inRange := Bool.and_true _

/-- In PEEK_BITS' expansion the range of READ_BITS is the narrower (R71). -/
theorem wellFormed_peekBits (n : Nat) : (AsmLine.peekBits n).wellFormed = decide (n ≤ 63) := by
  have hrange : n ≤ 63 → n < 2 ^ 60 := by omega
  simpa [AsmLine.wellFormed, AsmLine.expand, AsmCore.inRange] using hrange

/-- Settles O7: a core line is well formed when its operand is in range, and a well-formed line assembles to the
encodings of its expansion. -/
theorem assemblerAgreesWithEncoding : Obligations.AssemblerAgreesWithEncoding := by
  refine ⟨fun c hc => ⟨?_, ?_⟩, fun c hc => ?_, ?_, ?_, fun n hn => ?_, fun n hn => ?_⟩
  · exact assemble_of_wellFormed ((wellFormed_core c).trans hc)
  · exact decode_eq_command_iff.mpr (word_eq_encode_instr hc).symm
  · exact assemble_of_not_wellFormed ((wellFormed_core c).trans hc)
  · exact assemble_of_wellFormed (l := .readByte) rfl
  · exact assemble_of_wellFormed (l := .nop) rfl
  · exact assemble_of_wellFormed ((wellFormed_peekBits n).trans (decide_eq_true hn))
  · exact assemble_of_not_wellFormed ((wellFormed_peekBits n).trans (decide_eq_false hn.not_ge))

/-- Settles O1, by running the decoder on each word. -/
theorem specWordsDecode : Obligations.SpecWordsDecode := by
  refine ⟨?_, ?_, ?_, ?_, ?_, ?_, ?_, ?_, ?_, ?_, ?_, ?_⟩ <;> decide

end Sys2Proof
end

section
/-! PROOFS. The step on one input and its one response (R60, R66, R67), and the pseudo-instructions' effect (R71). -/

namespace Sys2Proof.Machine

/-! ## One input, one response -/

/-- Settles O8. -/
theorem stepRunsDecodedCommand : Obligations.StepRunsDecodedCommand := fun _ _ _ _ hport hdecode =>
  (step_input hport).trans (runWord_command hdecode _)

theorem runWord_port {cw : CommandWord} {s t : State} (h : runWord cw s = .next t) : t.port = s.port := by
  obtain ⟨v, -, rfl⟩ | ⟨-, rc, pos, x, -, rfl⟩ := runWord_cases h <;> rfl

/-- Settles O10: a step is idle, resets, or runs one command word, and neither of the last two touches the rest. -/
theorem stepTakesOneInput : Obligations.StepTakesOneInput := by
  refine ⟨fun s t h => ?_, fun s hport => step_idle hport⟩
  obtain ⟨hport, rfl⟩ | ⟨rest, hport, rfl⟩ | ⟨cw, rest, hport, hrun⟩ := step_cases h
  · rw [hport, List.tail_nil]
  · rw [hport, List.tail_cons, State.assertReset_port]
  · rw [hport, List.tail_cons, runWord_port hrun]

/-- The outcome `o` in `s` delivers one more response, with result 0 unless it is OK, and never with the code of the
elaboration's refusal (R66, R67, R143). -/
def AnswersOnce (s : State) (o : Host.Outcome State Fault Refusal) : Prop :=
  ∃ t r, o = .next t ∧ t.responses = s.responses ++ [r] ∧ (r.status ≠ .ok → r.result = 0#64) ∧
    r.status ≠ .invalidCapacity

theorem answersOnce_ok {s t : State} (h : t.responses = s.responses) (x : Word64) :
    AnswersOnce s (.next (t.answered .ok x)) :=
  ⟨_, ⟨.ok, x⟩, rfl, by rw [State.answered_responses, h], fun hne => absurd rfl hne, Status.noConfusion⟩

theorem answersOnce_fault (s : State) {st : Status} (h : st ≠ .invalidCapacity) :
    AnswersOnce s (.next (s.answered st 0)) :=
  ⟨_, ⟨st, 0⟩, rfl, rfl, fun _ => rfl, h⟩

theorem answersOnce_rewind (bits : Word64) (s : State) : AnswersOnce s (rewind bits s) := by
  obtain ⟨-, h⟩ | ⟨-, h⟩ := rewind_cases bits s <;> rw [h]
  · exact answersOnce_fault s (by decide)
  · exact answersOnce_ok (State.unconsume_responses s bits) 0

theorem answersOnce_readBits (n : BitVec 6) (s : State) : AnswersOnce s (execReadBits n s) := by
  obtain ⟨-, h⟩ | ⟨-, h⟩ := execReadBits_cases n s <;> rw [h]
  · exact answersOnce_fault s (by decide)
  · exact answersOnce_ok (State.consume_responses s n.toNat) _

theorem answersOnce_exec (i : Instr) (s : State) : AnswersOnce s (exec i s) := by
  cases i with
  | injectByte v => exact answersOnce_ok (State.inject_responses s v) 0
  | readBits n => exact answersOnce_readBits n s
  | readOneBit => exact answersOnce_ok (State.consume_responses s 1) _
  | position => exact answersOnce_ok rfl s.pos
  | rewindBits c => exact answersOnce_rewind (bitCountOperand c) s
  | rewindBytes c => exact answersOnce_rewind (byteCountOperand c) s

theorem answersOnce_runWord (cw : CommandWord) (s : State) : AnswersOnce s (runWord cw s) := by
  cases hd : decode cw with
  | command i =>
    rw [runWord_command hd]
    exact answersOnce_exec i s
  | illegal why =>
    rw [runWord_illegal hd]
    exact answersOnce_fault s (by decide)

/-- Settles O12. -/
theorem oneResponsePerCommand : Obligations.OneResponsePerCommand := by
  intro s cw rest hport
  rw [step_input hport]
  exact answersOnce_runWord cw { s with port := rest }

/-- Settles O38: the codes are read back status by status, and the eleven reserved codes one by one. -/
theorem statusCodes : Obligations.StatusCodes := by
  refine ⟨rfl, rfl, rfl, rfl, rfl, fun st => ?_, by decide⟩
  cases st <;> rfl

/-! ## PEEK_BITS and NOP -/

/-- A rewind by as many bits as were read brings both registers back. -/
theorem State.unconsume_consume {s : State} (hrc : s.rc < s.build.cap) {n : Nat} (hn : n < 2 ^ 64) :
    (s.consume n).unconsume (BitVec.ofNat 64 n) = s := by
  have hrc' : maskInt s.build ((mask s.build (s.rc + n) : Int) - n) = s.rc := by
    rw [sub_eq_add_neg, maskInt_mask_add, Nat.cast_add, add_neg_cancel_right, maskInt_natCast, mask_eq_self hrc]
  have hpos : s.pos + BitVec.ofNat 64 n - BitVec.ofNat 64 n = s.pos := BitVec.add_sub_cancel _ _
  simp only [State.unconsume, State.consume, BitVec.toNat_ofNat, Nat.mod_eq_of_lt hn, hrc', hpos]

/-- In a rewind by what was just read there is no underflow where the counter has not wrapped. -/
theorem rewindUnderflow_consume {s : State} {n : Nat} (h : s.build.checked = true → s.pos.toNat + n < 2 ^ 64) :
    rewindUnderflow (s.consume n) (BitVec.ofNat 64 n) = false := by
  cases hmode : s.build.checked with
  | false => simp [rewindUnderflow, hmode]
  | true =>
    have hlt := h hmode
    have hle : ¬s.pos + BitVec.ofNat 64 n < BitVec.ofNat 64 n := by bv_omega
    simp only [rewindUnderflow, State.consume_build, hmode, Bool.true_and]
    exact decide_eq_false hle

theorem exec_readBits_of_width_le {n : BitVec 6} {s : State} (h : s.build.checked = true → n.toNat ≤ 32) :
    exec (.readBits n) s =
      .next ((s.consume n.toNat).answered .ok ((readAccumulator s n.toNat).zeroExtend 64)) := by
  obtain ⟨hfault, -⟩ | ⟨-, hread⟩ := execReadBits_cases n s
  · obtain ⟨hmode, hwide⟩ := Bool.and_eq_true_iff.mp hfault
    exact absurd (h hmode) (not_le.mpr (of_decide_eq_true hwide))
  · exact hread

theorem bitCountOperand_ofNat {n : Nat} (h : n < 2 ^ 60) :
    bitCountOperand (BitVec.ofNat 60 n) = BitVec.ofNat 64 n := by
  simp only [bitCountOperand, BitVec.truncate_eq_setWidth]
  bv_omega

/-- REWIND_BITS by as many bits as were just read leaves the state before the read, with its own response. -/
theorem exec_rewindBits_consume {s : State} {n : Nat} (hrc : s.rc < s.build.cap) (hn : n < 2 ^ 60)
    (h : s.build.checked = true → s.pos.toNat + n < 2 ^ 64) :
    exec (.rewindBits (BitVec.ofNat 60 n)) (s.consume n) = .next (s.answered .ok 0) := by
  change rewind (bitCountOperand (BitVec.ofNat 60 n)) (s.consume n) = _
  rw [bitCountOperand_ofNat hn, rewind, if_neg (ne_true_of_eq_false (rewindUnderflow_consume h)),
    State.unconsume_consume hrc (by omega), respond_eq]

/-- Settles O30: the rewind undoes what the read did to the registers, and POSITION does nothing to them. -/
theorem peekAndNopLeaveTheBlock : Obligations.PeekAndNopLeaveTheBlock := by
  refine ⟨fun n s hrc h => ?_, fun s => rfl⟩
  have hn : n.toNat < 2 ^ 60 := n.isLt.trans (by decide)
  rw [execAll_cons, exec_readBits_of_width_le fun hmode => (h hmode).1, andThen_next, execAll_cons]
  have hback := exec_rewindBits_consume (s := s.answered .ok ((readAccumulator s n.toNat).zeroExtend 64)) hrc hn
    fun hmode => (h hmode).2
  exact congrArg (andThen · (execAll [])) hback

end Sys2Proof.Machine
end

section
/-! PROOFS. INJECT_BYTE (spec/40_inject.md): its word, its eight ordered writes and their frame (R43, R80), and its end
state in a buffer of fewer than eight slots (R81). -/

namespace Sys2Proof.Machine

/-- ORing an operand into the match value puts it in the lowest bits, zero in the match value (R63, R64). -/
theorem or_zeroExtend_eq_append {m w : Nat} (hi : BitVec m) (v : BitVec w) :
    (hi ++ 0#w) ||| v.zeroExtend (m + w) = hi ++ v := by
  have h := or_lowBits_eq_append hi v.isLt
  rwa [BitVec.ofNat_toNat, BitVec.ofNat_toNat, BitVec.setWidth_eq] at h

/-- Settles O15: the response leaves the slots alone, and a slot holds the last of the eight writes that reached it. -/
theorem injectByteEffect : Obligations.InjectByteEffect := by
  refine ⟨fun v => ?_, fun v s hs =>
    ⟨_, exec_injectByte v s, fun i hi hlast => ?_, fun j hother => ?_, rfl, rfl, rfl, rfl, rfl, rfl⟩⟩
  · exact decode_eq_command_iff.mpr (or_zeroExtend_eq_append (w := 8) (0x1#4 ++ 0#52) v).symm
  · rw [← extractLsb'_one_eq_ofBool]
    exact read_storeBits_last s.build s.wc v hs 8 hi fun k hk hik => hlast k hik hk
  · exact read_storeBits_other s.build s.wc v s.storage 8 hother

/-- The last CAP of the writes are to distinct slots, so none of them is overwritten. -/
theorem read_storeBits_of_le_add_cap {b : Build} (wc : Nat) (v : Byte) {m : Memory} (hm : m.wf) {k i : Nat}
    (hi : i < k) (hcap : k ≤ i + b.cap) :
    (storeBits b wc v k m).read (mask b (wc + i)) = BitVec.ofBool (v.getLsbD (7 - i)) := by
  rw [← extractLsb'_one_eq_ofBool]
  refine read_storeBits_last b wc v hm k hi fun j hj hij hsame => ?_
  have hoffset : wc + j = wc + i + (j - i) := by omega
  rw [hoffset] at hsame
  have := mask_add_inj (j := 0) (by omega) (cap_pos b) hsame
  omega

/-- Where CAP is below 8 it divides 8, so the last CAP of the eight writes start at slot 0 again. -/
theorem mask_eight_sub_cap_add {b : Build} (hcap : b.cap < 8) {j : Nat} (hj : j < b.cap) :
    mask b (8 - b.cap + j) = j := by
  obtain ⟨m, hm⟩ := Nat.dvd_sub (cap_dvd_eight hcap) dvd_rfl
  rw [hm, mask, Nat.mul_add_mod, Nat.mod_eq_of_lt hj]

/-- Settles O16: slot `j` is written last by write `8 - CAP + j`, with bit `CAP - 1 - j` of the byte. -/
theorem injectByteInSmallCapacity : Obligations.InjectByteInSmallCapacity := by
  intro v s hs hcap
  have hwc := hs.wc_small hcap
  refine ⟨_, exec_injectByte v s, (hs.inject v).wc_small hcap, fun j hj => ?_⟩
  have hslot := read_storeBits_of_le_add_cap (b := s.build) 0 v hs.storage_wf (k := 8) (i := 8 - s.build.cap + j)
    (by omega) (by omega)
  have hbit : 7 - (8 - s.build.cap + j) = s.build.cap - 1 - j := by omega
  rwa [Nat.zero_add, mask_eight_sub_cap_add hcap hj, hbit, ← hwc] at hslot

end Sys2Proof.Machine
end

section
/-! PROOFS. READ_BITS and READ_ONE_BIT (spec/41_read.md): the accumulator as a number (R90), the two commands' effects
(R90, R93, R94), and one field read by either path or bit by bit (R92). -/

namespace Sys2Proof.Machine

/-! ## The accumulator -/

/-- A bit shifted in from the right doubles the accumulator and adds the bit; the high bit falls off. -/
theorem toNat_shiftLeft_one_or_bit {w : Nat} (acc : BitVec w) (b : Bit) :
    ((acc <<< 1) ||| b.zeroExtend w).toNat = (2 * acc.toNat + b.toNat) % 2 ^ w := by
  have hshift : (acc <<< 1) ||| b.zeroExtend w = (acc ++ b).setWidth w := by
    ext j hj
    cases j with
    | zero => simp [BitVec.getElem_append]
    | succ j => simp [BitVec.getLsbD_append, BitVec.getLsbD_eq_getElem (Nat.lt_of_succ_lt hj)]
  rw [hshift, BitVec.toNat_setWidth, toNat_append_eq, pow_one, Nat.mul_comm]

/-- Of a field with one more bit, the bits before the last count double (R44). -/
theorem sum_msbFirst_succ (bit : Nat → Nat) (n : Nat) :
    (∑ i ∈ Finset.range (n + 1), bit i * 2 ^ (n + 1 - 1 - i)) =
      2 * (∑ i ∈ Finset.range n, bit i * 2 ^ (n - 1 - i)) + bit n := by
  have hdouble : ∀ i ∈ Finset.range n, bit i * 2 ^ (n - i) = 2 * (bit i * 2 ^ (n - 1 - i)) := fun i hi => by
    have hpow : n - i = n - 1 - i + 1 := by have := Finset.mem_range.mp hi; omega
    rw [hpow, pow_succ]
    ring
  rw [Finset.sum_range_succ, Nat.add_sub_cancel, Nat.sub_self, pow_zero, mul_one, Finset.sum_congr rfl hdouble,
    Finset.mul_sum]

/-- The accumulator is the number that the bits read write, most significant first, modulo `2 ^ 32` (R90, R94). -/
theorem toNat_readAccumulator (s : State) (n : Nat) :
    (readAccumulator s n).toNat =
      (∑ i ∈ Finset.range n, (s.slot ((s.rc + i) % s.build.cap)).toNat * 2 ^ (n - 1 - i)) % 2 ^ 32 := by
  induction n with
  | zero => rfl
  | succ k ih =>
    rw [readAccumulator, toNat_shiftLeft_one_or_bit, ih, sum_msbFirst_succ, mask, Nat.add_mod, Nat.mul_mod_mod,
      ← Nat.add_mod]

/-- Where the span does not cross the physical end, every index is its own mask. -/
theorem fastAccumulator_eq_readAccumulator {s : State} {n : Nat} (h : s.rc + n ≤ s.build.cap) :
    fastAccumulator s n = readAccumulator s n := by
  induction n with
  | zero => rfl
  | succ k ih => rw [fastAccumulator, readAccumulator, ih (by omega), mask_eq_self (by omega)]

/-! ## The registers -/

/-- A read of no bits moves nothing; the premise is the range of `RC` (R95). -/
theorem State.consume_zero {s : State} (hrc : s.rc < s.build.cap) : s.consume 0 = s := by
  simp only [State.consume, Nat.add_zero, mask_eq_self hrc, BitVec.add_zero]

theorem State.consume_consume (s : State) (m n : Nat) : (s.consume m).consume n = s.consume (m + n) := by
  simp only [State.consume, mask_mask_add, Nat.add_assoc, BitVec.add_assoc, BitVec.ofNat_add]

/-! ## READ_BITS -/

theorem exec_readBits_of_width_gt {n : BitVec 6} {s : State} (hmode : s.build.checked = true) (hwide : 32 < n.toNat) :
    exec (.readBits n) s = .next (s.answered .readWidthOutOfRange 0) := by
  obtain ⟨-, hfault⟩ | ⟨hwidth, -⟩ := execReadBits_cases n s
  · exact hfault
  · simp [readWidthOutOfRange, hmode, hwide] at hwidth

/-- Settles O18: the command reads unless its width is the fault, and the accumulator is the sum of its bits. -/
theorem readBitsEffect : Obligations.ReadBitsEffect := by
  refine ⟨fun n => ?_, fun n s h => ?_, fun n s => exec_readBits_of_width_gt⟩
  · exact decode_eq_command_iff.mpr (or_zeroExtend_eq_append (w := 6) (0x2#4 ++ 0#54) n).symm
  · rw [← toNat_readAccumulator, BitVec.ofNat_toNat 64 (readAccumulator s n.toNat)]
    exact exec_readBits_of_width_le fun hmode => not_lt.mp (not_and.mp h hmode)

/-- Settles O19. -/
theorem readBitsOfWidthZeroChangesNothing : Obligations.ReadBitsOfWidthZeroChangesNothing := by
  intro s hrc
  have hread : exec (.readBits 0#6) s = .next ((s.consume 0).answered .ok 0) :=
    exec_readBits_of_width_le fun _ => Nat.zero_le 32
  rw [hread, State.consume_zero hrc]

/-! ## READ_ONE_BIT -/

theorem exec_readOneBit (s : State) :
    exec .readOneBit s = .next ((s.consume 1).answered .ok ((s.slot s.rc).zeroExtend 64)) := rfl

theorem readAccumulator_one {s : State} (hrc : s.rc < s.build.cap) :
    readAccumulator s 1 = (s.slot s.rc).zeroExtend 32 := by
  simp [readAccumulator, mask_eq_self hrc]

/-- Settles O20: a command has one word, and the accumulator of one bit is the slot at the cursor. -/
theorem readOneBitEffect : Obligations.ReadOneBitEffect := by
  refine ⟨fun cw => ?_, exec_readOneBit, fun s hrc => ?_⟩
  · exact decode_eq_command_iff.trans eq_comm
  · have hread : exec (.readBits 1#6) s =
        .next ((s.consume 1).answered .ok ((readAccumulator s 1).zeroExtend 64)) :=
      exec_readBits_of_width_le fun _ => by decide
    have hbit : ((s.slot s.rc).zeroExtend 32).zeroExtend 64 = (s.slot s.rc).zeroExtend 64 :=
      by simp
    rw [hread, readAccumulator_one hrc, hbit, exec_readOneBit]

/-! ## A field read bit by bit -/

/-- The responses to `n` READ_ONE_BIT commands: the slots from `RC` on, one bit each. -/
def oneBitResponses (s : State) (n : Nat) : List Response :=
  (List.range n).map fun k => ⟨.ok, (s.slot (mask s.build (s.rc + k))).zeroExtend 64⟩

theorem oneBitResponses_zero (s : State) : oneBitResponses s 0 = [] := rfl

theorem oneBitResponses_succ (s : State) (n : Nat) :
    oneBitResponses s (n + 1) =
      oneBitResponses s n ++ [⟨.ok, (s.slot (mask s.build (s.rc + n))).zeroExtend 64⟩] := by
  rw [oneBitResponses, List.range_succ, List.map_append]
  rfl

theorem length_oneBitResponses (s : State) (n : Nat) : (oneBitResponses s n).length = n := by
  simp [oneBitResponses]

theorem status_of_mem_oneBitResponses {s : State} {n : Nat} {r : Response} (h : r ∈ oneBitResponses s n) :
    r.status = .ok := by
  obtain ⟨k, -, rfl⟩ := List.mem_map.mp h
  rfl

theorem assembleBits_append_singleton (rs : List Response) (r : Response) :
    assembleBits (rs ++ [r]) = (assembleBits rs <<< 1) ||| r.result.truncate 32 :=
  List.foldl_append

/-- The bits assembled MSB first are the accumulator of the masked path. -/
theorem assembleBits_oneBitResponses (s : State) (n : Nat) :
    assembleBits (oneBitResponses s n) = readAccumulator s n := by
  induction n with
  | zero => rfl
  | succ k ih =>
    rw [oneBitResponses_succ, assembleBits_append_singleton, ih, readAccumulator]
    exact congrArg _ (BitVec.setWidth_setWidth_of_le _ (by decide))

/-- `n` READ_ONE_BIT commands move the registers as one read of `n` bits. -/
theorem execAll_replicate_readOneBit {s : State} (hrc : s.rc < s.build.cap) (n : Nat) :
    execAll (List.replicate n .readOneBit) s =
      .next { s.consume n with responses := s.responses ++ oneBitResponses s n } := by
  induction n with
  | zero =>
    rw [State.consume_zero hrc, oneBitResponses_zero, List.append_nil]
    rfl
  | succ k ih =>
    rw [List.replicate_succ', execAll_append_of_eq_next ih, execAll_cons, exec_readOneBit, andThen_next, execAll_nil,
      oneBitResponses_succ, ← State.consume_consume, ← List.append_assoc]
    rfl

/-- Settles O21: the single reads leave the registers of the one read, and their bits make its accumulator. -/
theorem readPathsAgree : Obligations.ReadPathsAgree := by
  refine ⟨fun s n => fastAccumulator_eq_readAccumulator, fun s n hrc h =>
    ⟨s.consume n.toNat, oneBitResponses s n.toNat, execAll_replicate_readOneBit hrc n.toNat,
      length_oneBitResponses s n.toNat, fun r => status_of_mem_oneBitResponses, ?_⟩⟩
  rw [assembleBits_oneBitResponses]
  exact exec_readBits_of_width_le fun hmode => not_lt.mp (not_and.mp h hmode)

end Sys2Proof.Machine
end

section
/-! PROOFS. POSITION (spec/42_position.md): its word and answer (R110), and the position law, how each command moves the
counter (R111). -/

namespace Sys2Proof.Machine

/-! ## POSITION -/

/-- Settles O22: a command has one word. -/
theorem positionReturnsTheCounter : Obligations.PositionReturnsTheCounter :=
  ⟨fun _ => decode_eq_command_iff.trans eq_comm, fun _ => rfl⟩

/-! ## The position law -/

/-- A count below `2 ^ 64` that is not 0 is no multiple of `2 ^ 64`. -/
theorem ofNat_eq_zero_iff {n : Nat} (hn : n < 2 ^ 64) : BitVec.ofNat 64 n = 0 ↔ n = 0 := by
  rw [← BitVec.toNat_inj, BitVec.toNat_ofNat, Nat.mod_eq_of_lt hn]
  rfl

theorem add_ofNat_eq_self_iff (p : Word64) {n : Nat} (hn : n < 2 ^ 64) : p + BitVec.ofNat 64 n = p ↔ n = 0 :=
  add_eq_left.trans (ofNat_eq_zero_iff hn)

theorem sub_ofNat_eq_self_iff (p : Word64) {n : Nat} (hn : n < 2 ^ 64) : p - BitVec.ofNat 64 n = p ↔ n = 0 :=
  sub_eq_self.trans (ofNat_eq_zero_iff hn)

theorem bitCountOperand_eq_ofNat (c : BitVec 60) : bitCountOperand c = BitVec.ofNat 64 c.toNat :=
  (BitVec.ofNat_toNat 64 c).symm

theorem byteCountOperand_eq_ofNat (c : BitVec 60) : byteCountOperand c = BitVec.ofNat 64 (8 * c.toNat) := by
  simp only [byteCountOperand, BitVec.truncate_eq_setWidth]
  bv_omega

/-- The position law for one outcome: a completion leaves the counter at `p`, which is the counter before it exactly
when the bit count `n` is 0; a fault leaves the counter where it is. -/
def MovesCounter (s : State) (o : Host.Outcome State Fault Refusal) (p : Word64) (n : Nat) : Prop :=
  ∃ t r, o = .next t ∧ t.responses = s.responses ++ [r] ∧ (r.status ≠ .ok → t.pos = s.pos) ∧
    (r.status = .ok → t.pos = p ∧ (t.pos = s.pos ↔ n = 0))

section
variable {s : State} {p : Word64} {n : Nat}

theorem movesCounter_fault {st : Status} (h : st ≠ .ok) : MovesCounter s (.next (s.answered st 0)) p n :=
  ⟨_, _, rfl, State.answered_responses s st 0, fun _ => rfl, fun hok => absurd hok h⟩

theorem movesCounter_ok {t : State} (hresponses : t.responses = s.responses) (hstrict : t.pos = s.pos ↔ n = 0)
    (x : Word64) : MovesCounter s (.next (t.answered .ok x)) t.pos n :=
  ⟨_, ⟨.ok, x⟩, rfl, by rw [State.answered_responses, hresponses], fun hfault => absurd rfl hfault,
    fun _ => ⟨rfl, hstrict⟩⟩

end

theorem movesCounter_consume (s : State) {n : Nat} (hn : n < 2 ^ 64) (x : Word64) :
    MovesCounter s (.next ((s.consume n).answered .ok x)) (s.pos + BitVec.ofNat 64 n) n :=
  movesCounter_ok (State.consume_responses s n) (add_ofNat_eq_self_iff s.pos hn) x

theorem movesCounter_readBits (n : BitVec 6) (s : State) :
    MovesCounter s (execReadBits n s) (s.pos + BitVec.ofNat 64 n.toNat) n.toNat := by
  obtain ⟨-, h⟩ | ⟨-, h⟩ := execReadBits_cases n s <;> rw [h]
  · exact movesCounter_fault (by decide)
  · exact movesCounter_consume s (n.isLt.trans (by decide)) _

theorem movesCounter_rewind {n : Nat} (hn : n < 2 ^ 64) (s : State) :
    MovesCounter s (rewind (BitVec.ofNat 64 n) s) (s.pos - BitVec.ofNat 64 n) n := by
  obtain ⟨-, h⟩ | ⟨-, h⟩ := rewind_cases (BitVec.ofNat 64 n) s <;> rw [h]
  · exact movesCounter_fault (by decide)
  · exact movesCounter_ok (State.unconsume_responses s _) (sub_ofNat_eq_self_iff s.pos hn) 0

/-- Settles O23: reads add, rewinds subtract, and an addition or subtraction of a bit count below `2 ^ 64` is strict
exactly when the count is not 0. -/
theorem positionLaw : Obligations.PositionLaw := by
  refine ⟨fun i s => ?_, fun cw why s hd => ⟨s.answered .invalidCommand 0, runWord_illegal hd s, rfl⟩⟩
  cases i with
  | injectByte v => exact movesCounter_ok (State.inject_responses s v) (iff_of_true rfl rfl) 0
  | readBits n => exact movesCounter_readBits n s
  | readOneBit => exact movesCounter_consume s (by decide) _
  | position => exact movesCounter_ok rfl (iff_of_true rfl rfl) s.pos
  | rewindBits c =>
    have hbits : exec (.rewindBits c) s = rewind (BitVec.ofNat 64 c.toNat) s :=
      congrArg (rewind · s) (bitCountOperand_eq_ofNat c)
    rw [hbits]
    exact movesCounter_rewind (c.isLt.trans (by decide)) s
  | rewindBytes c =>
    have hbits : exec (.rewindBytes c) s = rewind (BitVec.ofNat 64 (8 * c.toNat)) s :=
      congrArg (rewind · s) (byteCountOperand_eq_ofNat c)
    rw [hbits]
    exact movesCounter_rewind (by have := c.isLt; omega) s

end Sys2Proof.Machine
end

section
/-! PROOFS. REWIND_BITS and REWIND_BYTES (spec/43_rewind.md): their words, effects and fault (R120, R121), a baseline
rewind past the start (R123), and what a rewind undoes (R122). -/

namespace Sys2Proof.Machine

/-! ## The shared operation -/

section
variable {s : State} {n : Nat}

/-- The underflow of R146 as a comparison of numbers, for a bit count that fits 64 bits. -/
theorem rewindUnderflow_ofNat_iff (hn : n < 2 ^ 64) :
    rewindUnderflow s (BitVec.ofNat 64 n) = true ↔ s.build.checked = true ∧ s.pos.toNat < n := by
  rw [rewindUnderflow, Bool.and_eq_true, decide_eq_true_eq, BitVec.lt_def, BitVec.toNat_ofNat, Nat.mod_eq_of_lt hn]

theorem rewind_of_underflow (hn : n < 2 ^ 64) (hmode : s.build.checked = true) (hpos : s.pos.toNat < n) :
    rewind (BitVec.ofNat 64 n) s = .next (s.answered .rewindUnderflow 0) :=
  if_pos ((rewindUnderflow_ofNat_iff hn).mpr ⟨hmode, hpos⟩)

theorem rewind_of_not_underflow (hn : n < 2 ^ 64) (h : ¬(s.build.checked = true ∧ s.pos.toNat < n)) :
    rewind (BitVec.ofNat 64 n) s = .next (State.answered
      { s with rc := (((s.rc : Int) - n) % s.build.cap).toNat, pos := s.pos - BitVec.ofNat 64 n } .ok 0) := by
  rw [rewind, if_neg (mt (rewindUnderflow_ofNat_iff hn).mp h), respond_eq, State.unconsume, maskInt,
    BitVec.toNat_ofNat, Nat.mod_eq_of_lt hn]

end

theorem exec_rewindBits (c : BitVec 60) (s : State) :
    exec (.rewindBits c) s = rewind (BitVec.ofNat 64 c.toNat) s :=
  congrArg (rewind · s) (bitCountOperand_eq_ofNat c)

theorem exec_rewindBytes (c : BitVec 60) (s : State) :
    exec (.rewindBytes c) s = rewind (BitVec.ofNat 64 (8 * c.toNat)) s :=
  congrArg (rewind · s) (byteCountOperand_eq_ofNat c)

/-! ## The two commands -/

/-- Settles O24: the command is the shared operation by `count` bits. -/
theorem rewindBitsEffect : Obligations.RewindBitsEffect := by
  have hbits (c : BitVec 60) : c.toNat < 2 ^ 64 := c.isLt.trans (by decide)
  refine ⟨fun c => ?_, fun c s h => ?_, fun c s hmode hpos => ?_⟩
  · exact decode_eq_command_iff.mpr (or_zeroExtend_eq_append (w := 60) 0x5#4 c).symm
  · exact (exec_rewindBits c s).trans (rewind_of_not_underflow (hbits c) h)
  · exact (exec_rewindBits c s).trans (rewind_of_underflow (hbits c) hmode hpos)

/-- Settles O25: the command is the shared operation by `8 * count` bits, which is below `2 ^ 63`. -/
theorem rewindBytesEffect : Obligations.RewindBytesEffect := by
  have hbits (c : BitVec 60) : 8 * c.toNat < 2 ^ 64 := by have := c.isLt; omega
  refine ⟨fun c => ?_, fun c s h => ?_, fun c s hmode hpos => ?_⟩
  · exact decode_eq_command_iff.mpr (or_zeroExtend_eq_append (w := 60) 0x6#4 c).symm
  · have hrewind := rewind_of_not_underflow (hbits c) h
    rw [Nat.cast_mul, Nat.cast_ofNat] at hrewind
    exact (exec_rewindBytes c s).trans hrewind
  · exact (exec_rewindBytes c s).trans (rewind_of_underflow (hbits c) hmode hpos)

/-- Settles O28: both are the shared operation by the same number of bits. -/
theorem byteAndBitRewindAgree : Obligations.ByteAndBitRewindAgree := by
  intro m c s h
  rw [exec_rewindBytes, exec_rewindBits, h]

/-! ## A baseline rewind past the start -/

/-- Either rewind command is the shared operation by its bit count, which is below `2 ^ 63`. -/
theorem exec_eq_rewind_bitCount {i : Instr} (hi : ∃ c, i = .rewindBits c ∨ i = .rewindBytes c) (s : State) :
    exec i s = rewind (BitVec.ofNat 64 i.bitCount) s ∧ i.bitCount < 2 ^ 63 := by
  obtain ⟨c, rfl | rfl⟩ := hi
  · exact ⟨exec_rewindBits c s, c.isLt.trans (by decide)⟩
  · exact ⟨exec_rewindBytes c s, by have := c.isLt; simp only [Instr.bitCount]; omega⟩

section
variable {p : Word64} {n : Nat}

/-- A subtraction of more than the counter holds borrows once from `2 ^ 64`. -/
theorem toNat_sub_ofNat_of_lt (hn : n < 2 ^ 64) (h : p.toNat < n) :
    (p - BitVec.ofNat 64 n).toNat = 2 ^ 64 + p.toNat - n := by
  bv_omega

/-- The signed reading of a counter that borrowed is the true difference where the bit count is below `2 ^ 63`. -/
theorem signedPosition_sub_ofNat_of_lt (hn : n < 2 ^ 63) (h : p.toNat < n) :
    signedPosition (p - BitVec.ofNat 64 n) = (p.toNat : Int) - n := by
  rw [signedPosition, BitVec.toInt_eq_toNat_cond, toNat_sub_ofNat_of_lt (by omega) h]
  omega

end

/-- Settles O27: baseline mode has no underflow, and the counter borrows once from `2 ^ 64`. -/
theorem baselineRewindPastTheStart : Obligations.BaselineRewindPastTheStart := by
  intro i s hi hmode hpos
  obtain ⟨hexec, hn⟩ := exec_eq_rewind_bitCount hi s
  have hbaseline : ¬(s.build.checked = true ∧ s.pos.toNat < i.bitCount) := fun h => by simp [hmode] at h
  have hsigned := signedPosition_sub_ofNat_of_lt hn hpos
  refine ⟨_, hexec.trans (rewind_of_not_underflow (by omega) hbaseline), rfl, ?_, hsigned, ?_, rfl, rfl, rfl⟩
  · exact toNat_sub_ofNat_of_lt (by omega) hpos
  · rw [State.answered_pos, hsigned]
    omega

/-! ## Reads undone -/

/-- A read that completes in the build answers OK and consumes its bit count. -/
theorem exec_of_completesRead {i : Instr} {s : State} (hi : i.completesRead s.build = true) :
    ∃ x, exec i s = .next ((s.consume i.bitCount).answered .ok x) := by
  cases i with
  | readBits n =>
    have hwidth : s.build.checked = true → n.toNat ≤ 32 := by simpa [Instr.completesRead, imp_iff_not_or] using hi
    exact ⟨_, exec_readBits_of_width_le hwidth⟩
  | readOneBit => exact ⟨_, exec_readOneBit s⟩
  | injectByte v | position | rewindBits c | rewindBytes c => cases hi

/-- Reads that complete move the registers as one read of all their bits, with one OK response each. -/
theorem execAll_of_completesRead {is : List Instr} {s : State} (hrc : s.rc < s.build.cap)
    (his : ∀ i ∈ is, i.completesRead s.build = true) :
    ∃ rs, execAll is s =
        .next (State.consume { s with responses := s.responses ++ rs } (is.map Instr.bitCount).sum) ∧
      rs.length = is.length ∧ ∀ r ∈ rs, r.status = .ok := by
  induction is generalizing s with
  | nil =>
    refine ⟨[], ?_, rfl, by simp⟩
    rw [List.append_nil, List.map_nil, List.sum_nil, State.consume_zero hrc, execAll_nil]
  | cons i is ih =>
    obtain ⟨hi, hrest⟩ := List.forall_mem_cons.mp his
    obtain ⟨x, hexec⟩ := exec_of_completesRead hi
    obtain ⟨rs, hrun, hlength, hok⟩ := ih (s := (s.consume i.bitCount).answered .ok x) (mask_lt s.build _) hrest
    refine ⟨⟨.ok, x⟩ :: rs, ?_, congrArg (· + 1) hlength, List.forall_mem_cons.mpr ⟨rfl, hok⟩⟩
    rw [execAll_cons, hexec, andThen_next, hrun, List.map_cons, List.sum_cons, ← State.consume_consume,
      List.append_cons]
    rfl

/-- Settles O29: the reads consume `k` bits as one read does, and the rewind undoes that read. -/
theorem rewindRestoresReads : Obligations.RewindRestoresReads := by
  intro is s hrc his hfits hwrap
  obtain ⟨rs, hrun, hlength, hok⟩ := execAll_of_completesRead hrc his
  have hback := exec_rewindBits_consume (s := { s with responses := s.responses ++ rs }) hrc hfits hwrap
  refine ⟨_, rs ++ [⟨.ok, 0⟩], ?_, rfl, ?_, ?_⟩
  · rw [execAll_append_of_eq_next hrun, execAll_cons, hback, andThen_next, execAll_nil, ← List.append_assoc]
    rfl
  · rw [List.length_append, List.length_singleton, hlength]
  · exact List.forall_mem_append.mpr ⟨hok, List.forall_mem_singleton.mpr rfl⟩

end Sys2Proof.Machine
end

section
/-! PROOFS. Exceptions (spec/60_exceptions.md): every step answers (R140, R157, R171), which command faults and what a
fault leaves (R141, R142), the rewinds' underflow (R146), and the capacities that are not built (R143). -/

namespace Sys2Proof.Machine

/-! ## No step stops -/

/-- Settles O11: whatever was delivered before, a step has one outcome, a next state. -/
theorem everyStepAnswersNextState : Obligations.EveryStepAnswersNextState := fun s =>
  have ⟨_, _, hstep⟩ := step_responses s
  ⟨_, hstep s.responses⟩

/-! ## Which command faults, and what a fault leaves -/

/-- The fault a command meets in a state (R145, R146): none in baseline mode, and none for the other commands. -/
def faultOf (i : Instr) (s : State) : Option Status :=
  match i with
  | .readBits n => if s.build.checked = true ∧ 32 < n.toNat then some .readWidthOutOfRange else none
  | .rewindBits _ | .rewindBytes _ =>
    if s.build.checked = true ∧ s.pos.toNat < i.bitCount then some .rewindUnderflow else none
  | .injectByte _ | .readOneBit | .position => none

section
variable {i : Instr} {s : State}

theorem faultOf_rewind (hi : ∃ c, i = .rewindBits c ∨ i = .rewindBytes c) (s : State) :
    faultOf i s = if s.build.checked = true ∧ s.pos.toNat < i.bitCount then some .rewindUnderflow else none := by
  obtain ⟨c, rfl | rfl⟩ := hi <;> rfl

theorem faultOf_baseline (hmode : s.build.checked = false) : faultOf i s = none := by
  cases i <;> simp [faultOf, hmode]

theorem faultOf_ne_ok (i : Instr) (s : State) : faultOf i s ≠ some .ok := by
  cases i <;> simp [faultOf]

theorem faultOf_eq_rewindUnderflow_iff : faultOf i s = some .rewindUnderflow ↔
    s.build.checked = true ∧ s.pos.toNat < i.bitCount ∧ ∃ c, i = .rewindBits c ∨ i = .rewindBytes c := by
  cases i <;> simp [faultOf]

theorem exec_rewind_of_fault {f : Status} (hi : ∃ c, i = .rewindBits c ∨ i = .rewindBytes c)
    (h : faultOf i s = some f) : exec i s = .next (s.answered f 0) := by
  obtain ⟨hexec, hn⟩ := exec_eq_rewind_bitCount hi s
  obtain ⟨⟨hmode, hpos⟩, ⟨⟩⟩ := Option.ite_none_right_eq_some.mp ((faultOf_rewind hi s).symm.trans h)
  exact hexec.trans (rewind_of_underflow (by omega) hmode hpos)

/-- A fault changes nothing but the response delivered, whose result is 0 (R141). -/
theorem exec_of_fault {f : Status} (h : faultOf i s = some f) : exec i s = .next (s.answered f 0) := by
  cases i with
  | readBits n =>
    obtain ⟨⟨hmode, hwide⟩, ⟨⟩⟩ := Option.ite_none_right_eq_some.mp h
    exact exec_readBits_of_width_gt hmode hwide
  | rewindBits c => exact exec_rewind_of_fault ⟨c, .inl rfl⟩ h
  | rewindBytes c => exact exec_rewind_of_fault ⟨c, .inr rfl⟩ h
  | injectByte v | readOneBit | position => cases h

end

/-- Where the command meets no fault it answers OK, and what it leaves and its result are the same in both modes. -/
def CompletesAlike (i : Instr) (s : State) : Prop :=
  ∃ (t : State) (x : Word64), t.responses = s.responses ∧ ∀ c, faultOf i (s.withChecked c) = none →
    exec i (s.withChecked c) = .next ((t.withChecked c).answered .ok x)

/-- The mode does not enter what a read returns. -/
theorem readAccumulator_withChecked (s : State) (c : Bool) (n : Nat) :
    readAccumulator (s.withChecked c) n = readAccumulator s n := by
  induction n with
  | zero => rfl
  | succ k ih =>
    rw [readAccumulator, ih]
    rfl

theorem completesAlike_readBits (n : BitVec 6) (s : State) : CompletesAlike (.readBits n) s := by
  refine ⟨s.consume n.toNat, (readAccumulator s n.toNat).zeroExtend 64, rfl, fun c h => ?_⟩
  have hwidth : (s.withChecked c).build.checked = true → n.toNat ≤ 32 := fun hmode =>
    not_lt.mp fun hwide => Option.some_ne_none _ ((if_pos ⟨hmode, hwide⟩).symm.trans h)
  rw [exec_readBits_of_width_le hwidth, readAccumulator_withChecked]
  rfl

theorem completesAlike_rewind {i : Instr} (hi : ∃ c, i = .rewindBits c ∨ i = .rewindBytes c) (s : State) :
    CompletesAlike i s := by
  refine ⟨s.unconsume (BitVec.ofNat 64 i.bitCount), 0, rfl, fun c h => ?_⟩
  obtain ⟨hexec, hn⟩ := exec_eq_rewind_bitCount hi (s.withChecked c)
  obtain ⟨hunder, -⟩ | ⟨-, hrewind⟩ := rewind_cases (BitVec.ofNat 64 i.bitCount) (s.withChecked c)
  · rw [faultOf_rewind hi, if_pos ((rewindUnderflow_ofNat_iff (by omega)).mp hunder)] at h
    cases h
  · exact hexec.trans hrewind

theorem completesAlike (i : Instr) (s : State) : CompletesAlike i s := by
  cases i with
  | injectByte v => exact ⟨s.inject v, 0, rfl, fun _ _ => rfl⟩
  | readBits n => exact completesAlike_readBits n s
  | readOneBit => exact ⟨s.consume 1, (s.slot s.rc).zeroExtend 64, rfl, fun _ _ => rfl⟩
  | position => exact ⟨s, s.pos, rfl, fun _ _ => rfl⟩
  | rewindBits count => exact completesAlike_rewind ⟨count, .inl rfl⟩ s
  | rewindBytes count => exact completesAlike_rewind ⟨count, .inr rfl⟩ s

theorem exec_of_no_fault {i : Instr} {s : State} (h : faultOf i s = none) :
    ∃ (t : State) (x : Word64), t.responses = s.responses ∧ exec i s = .next (t.answered .ok x) := by
  obtain ⟨t, x, hresponses, hexec⟩ := completesAlike i s
  exact ⟨t.withChecked s.build.checked, x, hresponses, hexec s.build.checked h⟩

/-- The one response delivered, read off the record. -/
theorem eq_of_answered_responses {s t : State} {st : Status} {x : Word64} {r : Response}
    (ht : t.responses = s.responses) (h : (t.answered st x).responses = s.responses ++ [r]) : r = ⟨st, x⟩ := by
  rw [State.answered_responses, ht] at h
  exact (List.singleton_inj.mp (List.append_cancel_left h)).symm

/-- A command is answered with the fault it meets, or with OK where it meets none. -/
theorem status_cases_of_exec {i : Instr} {s t : State} {r : Response} (h : exec i s = .next t)
    (hr : t.responses = s.responses ++ [r]) :
    (r.status ≠ .ok ∧ faultOf i s = some r.status) ∨ (r.status = .ok ∧ faultOf i s = none) := by
  cases hfault : faultOf i s with
  | some f =>
    obtain rfl := Host.Outcome.next.inj ((exec_of_fault hfault).symm.trans h)
    obtain rfl := eq_of_answered_responses rfl hr
    exact .inl ⟨fun hok : f = .ok => faultOf_ne_ok i s (hok ▸ hfault), rfl⟩
  | none =>
    obtain ⟨u, x, hu, hexec⟩ := exec_of_no_fault hfault
    obtain rfl := Host.Outcome.next.inj (hexec.symm.trans h)
    obtain rfl := eq_of_answered_responses hu hr
    exact .inr ⟨rfl, rfl⟩

/-- R141 for a command that faults. -/
theorem eq_answered_of_exec_fault {i : Instr} {s t : State} {r : Response} (h : exec i s = .next t)
    (hr : t.responses = s.responses ++ [r]) (hne : r.status ≠ .ok) : t = s.answered r.status 0 := by
  obtain ⟨-, hfault⟩ | ⟨hok, -⟩ := status_cases_of_exec h hr
  · exact Host.Outcome.next.inj (h.symm.trans (exec_of_fault hfault))
  · exact absurd hok hne

/-- R141 for a command that checked mode completes. -/
theorem exec_baseline_of_exec_checked {i : Instr} {s t : State} {r : Response}
    (h : exec i (s.withChecked true) = .next t) (hr : t.responses = s.responses ++ [r]) (hok : r.status = .ok) :
    exec i (s.withChecked false) = .next (t.withChecked false) := by
  obtain ⟨hne, -⟩ | ⟨-, hfault⟩ := status_cases_of_exec h hr
  · exact absurd hok hne
  · obtain ⟨u, x, -, hexec⟩ := completesAlike i s
    obtain rfl := Host.Outcome.next.inj ((hexec true hfault).symm.trans h)
    exact hexec false (faultOf_baseline rfl)

/-- An illegal word is answered INVALID_COMMAND, and nothing moves (R144). -/
theorem eq_answered_of_runWord_illegal {cw : CommandWord} {why : IllegalWord} (hd : decode cw = .illegal why)
    {s t : State} {r : Response} (h : runWord cw s = .next t) (hr : t.responses = s.responses ++ [r]) :
    r.status = .invalidCommand ∧ t = s.answered r.status 0 := by
  obtain rfl := Host.Outcome.next.inj ((runWord_illegal hd s).symm.trans h)
  obtain rfl := eq_of_answered_responses rfl hr
  exact ⟨rfl, rfl⟩

/-- Settles O13: an illegal word always faults, and a command faults and moves nothing, or completes in either mode. -/
theorem faultsArePreciseAndModesAgree : Obligations.FaultsArePreciseAndModesAgree := by
  refine ⟨fun cw s t r h hr hne => ?_, fun cw s t r h hr hok => ?_⟩
  · cases hd : decode cw with
    | command i => exact eq_answered_of_exec_fault ((runWord_command hd s).symm.trans h) hr hne
    | illegal why => exact (eq_answered_of_runWord_illegal hd h hr).2
  · cases hd : decode cw with
    | command i =>
      rw [runWord_command hd] at h ⊢
      exact exec_baseline_of_exec_checked h hr hok
    | illegal why =>
      obtain ⟨hst, -⟩ := eq_answered_of_runWord_illegal hd (s := s.withChecked true) h hr
      rw [hok] at hst
      cases hst

/-! ## The rewinds' underflow -/

/-- A subtraction of no more than the counter holds leaves the true difference. -/
theorem toNat_sub_ofNat_of_le {p : Word64} {n : Nat} (h : n ≤ p.toNat) :
    (p - BitVec.ofNat 64 n).toNat = p.toNat - n := by
  bv_omega

/-- Settles O26: a rewind underflows exactly in checked mode above POS, and no other command meets that fault. -/
theorem checkedRewindNeverBorrows : Obligations.CheckedRewindNeverBorrows := by
  refine ⟨fun i s hi hmode => ?_, fun i s t h hr => ?_, fun i s hi hmode => ?_⟩
  · obtain ⟨hexec, hn⟩ := exec_eq_rewind_bitCount hi s
    by_cases hpos : s.pos.toNat < i.bitCount
    · refine ⟨_, ⟨.rewindUnderflow, 0⟩, hexec.trans (rewind_of_underflow (by omega) hmode hpos), rfl, ?_, ?_, nofun⟩
      · exact iff_of_false nofun hpos.not_ge
      · exact iff_of_true rfl hpos
    · have hfits : ¬(s.build.checked = true ∧ s.pos.toNat < i.bitCount) := fun hunder => hpos hunder.2
      refine ⟨_, ⟨.ok, 0⟩, hexec.trans (rewind_of_not_underflow (by omega) hfits), rfl, ?_, ?_, fun _ => ?_⟩
      · exact iff_of_true rfl (not_lt.mp hpos)
      · exact iff_of_false nofun hpos
      · exact toNat_sub_ofNat_of_le (not_lt.mp hpos)
  · obtain ⟨-, hfault⟩ | ⟨hok, -⟩ := status_cases_of_exec h hr
    · exact faultOf_eq_rewindUnderflow_iff.mp hfault
    · cases hok
  · obtain ⟨hexec, hn⟩ := exec_eq_rewind_bitCount hi s
    have hbaseline : ¬(s.build.checked = true ∧ s.pos.toNat < i.bitCount) := fun hunder => by simp [hmode] at hunder
    exact ⟨_, hexec.trans (rewind_of_not_underflow (by omega) hbaseline), rfl⟩

/-! ## Capacities that are not built -/

/-- A command word's one response never has the code of the elaboration's refusal. -/
theorem runWord_keeps_no_invalidCapacity {cw : CommandWord} {s t : State} (h : runWord cw s = .next t)
    (hs : ∀ r ∈ s.responses, r.status ≠ .invalidCapacity) : ∀ r ∈ t.responses, r.status ≠ .invalidCapacity := by
  obtain ⟨u, x, hrun, hresponses, -, hx⟩ := answersOnce_runWord cw s
  obtain rfl := Host.Outcome.next.inj (hrun.symm.trans h)
  rw [hresponses]
  exact List.forall_mem_append.mpr ⟨hs, List.forall_mem_singleton.mpr hx⟩

/-- Settles O39: the search finds no exponent, an idle step and a reset deliver nothing, and a command word delivers
another code. -/
theorem invalidCapacityIsNotBuilt : Obligations.InvalidCapacityIsNotBuilt := by
  refine ⟨fun capacity checked hpow => ?_, fun s t h hs => ?_⟩
  · exact construct_eq_fault (fun k _ heq => hpow ⟨k, heq⟩) checked
  · obtain ⟨-, rfl⟩ | ⟨rest, -, rfl⟩ | ⟨cw, rest, -, hrun⟩ := step_cases h
    · exact hs
    · exact hs
    · exact runWord_keeps_no_invalidCapacity hrun hs

end Sys2Proof.Machine
end

section
/-! PROOFS. Reset and hazards (spec/70_reset_and_hazards.md): what reset clears (R160, R161), the end of every run
(R175, R176), and the stream that a caller who keeps its duties sees (R171, R172). -/

namespace Sys2Proof.Machine

/-! ## Reset -/

/-- Settles O9: only the build and the callers' two lists outlive the reset input. -/
theorem resetClearsAllButTheBuild : Obligations.ResetClearsAllButTheBuild :=
  ⟨fun b i => ⟨State.resetOf_slot b i, rfl, rfl, rfl, rfl⟩, fun s rest hport =>
    ⟨State.assertReset { s with port := rest }, step_input hport, State.resetOf_slot s.build, rfl, rfl, rfl, rfl, rfl⟩⟩

/-! ## Runs -/

/-- A step answers the input it takes once if it is a command word, and not at all if it is a reset assertion. -/
theorem step_responses_length {s : State} {input : PortInput} {rest : List PortInput} (hport : s.port = input :: rest) :
    ∃ t, step s = .next t ∧
      t.responses.length = s.responses.length + ([input].filter fun p => p ≠ .reset).length := by
  cases input with
  | reset =>
    obtain ⟨t, hstep, -, -, -, -, -, hresponses⟩ := resetClearsAllButTheBuild.2 s rest hport
    exact ⟨t, hstep, congrArg List.length hresponses⟩
  | command cw =>
    obtain ⟨t, r, hstep, hresponses, -⟩ := oneResponsePerCommand s cw rest hport
    exact ⟨t, hstep, by simp [hresponses]⟩

/-- One step for each input presented takes them all and answers each command word once. -/
theorem steps_of_port {s : State} {inputs : List PortInput} (hport : s.port = inputs) :
    ∃ t, steps inputs.length s = .next t ∧ t.port = [] ∧
      t.responses.length = s.responses.length + (inputs.filter fun p => p ≠ .reset).length := by
  induction inputs generalizing s with
  | nil => exact ⟨s, rfl, hport, rfl⟩
  | cons input rest ih =>
    obtain ⟨u, hstep, hone⟩ := step_responses_length hport
    have hrest : u.port = rest := by rw [stepTakesOneInput.1 s u hstep, hport, List.tail_cons]
    obtain ⟨t, hsteps, hempty, hmany⟩ := ih hrest
    refine ⟨t, ?_, hempty, ?_⟩
    · rw [List.length_cons, steps, hstep, andThen_next, hsteps]
    · rw [← List.singleton_append, List.filter_append, List.length_append, hmany, hone, Nat.add_assoc]

/-- Settles O14: by induction on the inputs; no step changes the build. -/
theorem everyRunEnds : Obligations.EveryRunEnds := by
  intro b inputs
  obtain ⟨t, hrun, hempty, hresponses⟩ := steps_of_port (s := (State.resetOf b).present inputs) rfl
  exact ⟨t, hrun, hempty, buildNeverChanges inputs.length _ t hrun, hresponses.trans (Nat.zero_add _)⟩

/-! ## Fields of bits as numbers -/

theorem fieldValue_append_singleton (bits : List Bit) (b : Bit) :
    fieldValue (bits ++ [b]) = 2 * fieldValue bits + b.toNat :=
  List.foldl_append

theorem fieldValue_lt (bits : List Bit) : fieldValue bits < 2 ^ bits.length := by
  induction bits using List.reverseRecOn with
  | nil => decide
  | append_singleton bits b ih =>
    have hb := b.isLt
    rw [fieldValue_append_singleton, List.length_append, List.length_singleton, Nat.pow_succ]
    omega

theorem Ideal.length_field_le (a : Ideal) (n : Nat) : (a.field n).length ≤ n :=
  List.length_take_le n _

/-- A field with one more bit has the next bit of the stream at its end. -/
theorem Ideal.field_succ {a : Ideal} {n : Nat} (h : a.position + n < a.stream.length) :
    a.field (n + 1) = a.field n ++ [a.stream[a.position + n]] := by
  have hn : n < (a.stream.drop a.position).length := by rw [List.length_drop]; omega
  rw [Ideal.field, Ideal.field, List.take_succ_eq_append_getElem hn, List.getElem_drop]

theorem length_byteBits (v : Byte) : (byteBits v).length = 8 := by
  rw [byteBits, List.length_map, List.length_range]

theorem getElem_byteBits (v : Byte) {i : Nat} (hi : i < (byteBits v).length) :
    (byteBits v)[i] = BitVec.ofBool (v.getLsbD (7 - i)) := by
  simp [byteBits]

/-! ## The registers at a position of the stream -/

/-- The state with the consumer's registers at a position of the stream. -/
def State.seek (s : State) (position : Nat) : State :=
  { s with rc := mask s.build position, pos := BitVec.ofNat 64 position }

/-- The reset state of every build stands for the empty stream. -/
theorem refines_resetOf (b : Build) : Refines (State.resetOf b) ⟨[], 0⟩ where
  storage_wf := (State.inv_resetOf b).storage_wf
  wc_eq := (Nat.zero_mod b.cap).symm
  rc_eq := (Nat.zero_mod b.cap).symm
  pos_eq := rfl
  position_lt := Nat.two_pow_pos 64
  position_le := le_rfl
  window := Nat.zero_le _
  slots k hk := absurd hk (Nat.not_lt_zero k)

section
variable {s : State} {a : Ideal}

theorem Refines.rc_lt (h : Refines s a) : s.rc < s.build.cap := h.rc_eq ▸ mask_lt s.build a.position

theorem Refines.toNat_pos (h : Refines s a) : s.pos.toNat = a.position := by
  rw [h.pos_eq, BitVec.toNat_ofNat, Nat.mod_eq_of_lt h.position_lt]

theorem Refines.answered (h : Refines s a) (st : Status) (r : Word64) : Refines (s.answered st r) a :=
  ⟨h.storage_wf, h.wc_eq, h.rc_eq, h.pos_eq, h.position_lt, h.position_le, h.window, h.slots⟩

/-- The consumer may stand anywhere in the last CAP bits of the stream. -/
theorem Refines.seek (h : Refines s a) {position : Nat} (hlt : position < 2 ^ 64) (hle : position ≤ a.stream.length)
    (hwindow : a.stream.length ≤ position + s.build.cap) : Refines (s.seek position) { a with position := position } :=
  ⟨h.storage_wf, h.wc_eq, rfl, rfl, hlt, hle, hwindow, h.slots⟩

theorem Refines.consume_eq_seek (h : Refines s a) (n : Nat) : s.consume n = s.seek (a.position + n) := by
  have hrc : mask s.build (s.rc + n) = mask s.build (a.position + n) := by
    rw [h.rc_eq]
    exact mask_mask_add s.build a.position n
  rw [State.consume, State.seek, hrc, h.pos_eq, BitVec.ofNat_add]

theorem Refines.unconsume_eq_seek (h : Refines s a) {n : Nat} (hn : n ≤ a.position) :
    s.unconsume (BitVec.ofNat 64 n) = s.seek (a.position - n) := by
  have hbits : n % 2 ^ 64 = n := Nat.mod_eq_of_lt (hn.trans_lt h.position_lt)
  have hrc : maskInt s.build ((s.rc : Int) - n) = mask s.build (a.position - n) := by
    rw [← maskInt_natCast, Nat.cast_sub hn, sub_eq_add_neg, sub_eq_add_neg, h.rc_eq]
    exact maskInt_mask_add s.build a.position (-n)
  have hpos : s.pos - BitVec.ofNat 64 n = BitVec.ofNat 64 (a.position - n) := by
    rw [h.pos_eq, BitVec.ofNat_sub_ofNat_of_le _ _ (hn.trans_lt h.position_lt) hn]
  rw [State.unconsume, State.seek, BitVec.toNat_ofNat, hbits, hrc, hpos]

/-! ## INJECT_BYTE at the stream's end -/

theorem Refines.mask_wc_add (h : Refines s a) (i : Nat) :
    mask s.build (s.wc + i) = mask s.build (a.stream.length + i) := by
  rw [h.wc_eq]
  exact mask_mask_add s.build a.stream.length i

/-- The writes pass over the bits among the last CAP of the stream that the byte makes longer. -/
theorem Refines.slot_inject_of_lt (h : Refines s a) {k : Nat} (hk : k < a.stream.length)
    (hkept : a.stream.length + 8 ≤ k + s.build.cap) (v : Byte) :
    (s.inject v).slot (mask s.build k) = a.stream[k] := by
  rw [← h.slots k hk (by omega)]
  refine read_storeBits_other s.build s.wc v s.storage 8 fun i hi hsame => ?_
  have hoffset : a.stream.length + i = k + (a.stream.length - k + i) := by omega
  rw [h.mask_wc_add, hoffset] at hsame
  have := mask_add_inj (n := k) (i := 0) (cap_pos s.build) (by omega) hsame
  omega

/-- The writes put the byte's bits at the stream's end, most significant first. -/
theorem Refines.slot_inject_add (h : Refines s a) (hcap : 8 ≤ s.build.cap) {i : Nat} (hi : i < 8) (v : Byte) :
    (s.inject v).slot (mask s.build (a.stream.length + i)) = BitVec.ofBool (v.getLsbD (7 - i)) := by
  rw [← h.mask_wc_add]
  exact read_storeBits_of_le_add_cap s.wc v h.storage_wf hi (by omega)

theorem Refines.inject (h : Refines s a) (hroom : a.stream.length + 8 ≤ a.position + s.build.cap) (v : Byte) :
    Refines (s.inject v) { a with stream := a.stream ++ byteBits v } := by
  have hlength : (a.stream ++ byteBits v).length = a.stream.length + 8 := by
    rw [List.length_append, length_byteBits]
  have hle := h.position_le
  refine ⟨storeBits_wf s.build s.wc v h.storage_wf 8, ?_, h.rc_eq, h.pos_eq, h.position_lt, ?_, ?_,
    fun k hk hkept => ?_⟩
  · rw [hlength]
    exact h.mask_wc_add 8
  · rw [hlength]
    exact Nat.le_add_right_of_le hle
  · rw [hlength]
    exact hroom
  · rw [hlength] at hk hkept
    obtain hold | hnew := lt_or_ge k a.stream.length
    · rw [List.getElem_append_left hold]
      exact h.slot_inject_of_lt hold hkept v
    · obtain ⟨i, rfl⟩ := Nat.exists_eq_add_of_le hnew
      rw [List.getElem_append_right hnew, getElem_byteBits, Nat.add_sub_cancel_left]
      exact h.slot_inject_add (by omega) (by omega) v

/-! ## A field read from the stream -/

/-- The accumulator is the number that the next `n` bits of the stream write, modulo `2 ^ 32`. -/
theorem Refines.toNat_readAccumulator (h : Refines s a) {n : Nat} (hn : a.position + n ≤ a.stream.length) :
    (readAccumulator s n).toNat = fieldValue (a.field n) % 2 ^ 32 := by
  induction n with
  | zero => rfl
  | succ k ih =>
    have hk : a.position + k < a.stream.length := hn
    have hwindow := h.window
    have hslot : s.slot (mask s.build (s.rc + k)) = a.stream[a.position + k] := by
      rw [h.rc_eq, ← h.slots _ hk (by omega)]
      exact congrArg s.slot (mask_mask_add s.build a.position k)
    rw [readAccumulator, toNat_shiftLeft_one_or_bit, ih hk.le, hslot, Ideal.field_succ hk,
      fieldValue_append_singleton, Nat.add_mod, Nat.mul_mod_mod, ← Nat.add_mod]

/-- A field of at most 32 bits is returned whole. -/
theorem Refines.readAccumulator_eq (h : Refines s a) {n : Nat} (hn : a.position + n ≤ a.stream.length)
    (hwidth : n ≤ 32) : (readAccumulator s n).zeroExtend 64 = BitVec.ofNat 64 (fieldValue (a.field n)) := by
  have hfits : fieldValue (a.field n) < 2 ^ 32 :=
    (fieldValue_lt _).trans_le (Nat.pow_le_pow_right (by decide) ((a.length_field_le n).trans hwidth))
  have hresult : (readAccumulator s n).toNat = fieldValue (a.field n) := by
    rw [h.toNat_readAccumulator hn, Nat.mod_eq_of_lt hfits]
  rw [← hresult]
  exact (BitVec.ofNat_toNat 64 _).symm

/-! ## Each command on the stream -/

/-- The outcome `o` of a command in `s` is one OK response with result `x`, in a state of the same build that stands for
the ideal stream `a`. -/
def AnswersAs (s : State) (o : Host.Outcome State Fault Refusal) (a : Ideal) (x : Word64) : Prop :=
  ∃ t, o = .next t ∧ Refines t a ∧ t.build = s.build ∧ t.responses = s.responses ++ [⟨.ok, x⟩]

theorem Refines.answersAs {t : State} (h : Refines t a) (hbuild : t.build = s.build)
    (hresponses : t.responses = s.responses) (x : Word64) : AnswersAs s (.next (t.answered .ok x)) a x :=
  ⟨_, rfl, h.answered .ok x, hbuild, by rw [State.answered_responses, hresponses]⟩

theorem Refines.answersAs_readBits (h : Refines s a) {n : BitVec 6} (hduty : a.dutiful s.build.cap (.readBits n)) :
    AnswersAs s (exec (.readBits n) s) (a.after (.readBits n)) (a.result (.readBits n)) := by
  obtain ⟨hwidth, hinjected, hlt⟩ := hduty
  have hwindow := h.window
  rw [exec_readBits_of_width_le fun _ => hwidth, h.readAccumulator_eq hinjected hwidth, h.consume_eq_seek]
  exact (h.seek hlt hinjected (by omega)).answersAs rfl rfl _

/-- READ_ONE_BIT is READ_BITS of width 1, on the block and on the stream. -/
theorem Refines.answersAs_readOneBit (h : Refines s a) (hduty : a.dutiful s.build.cap .readOneBit) :
    AnswersAs s (exec .readOneBit s) (a.after .readOneBit) (a.result .readOneBit) := by
  obtain ⟨-, -, hone⟩ := readOneBitEffect
  rw [hone s h.rc_lt]
  exact h.answersAs_readBits (n := 1#6) ⟨by decide, hduty⟩

/-- A rewind to a position the window still holds meets no underflow, as the counter is the position. -/
theorem Refines.answersAs_rewind (h : Refines s a) {n : Nat} (hn : n ≤ a.position)
    (hwindow : a.stream.length + n ≤ a.position + s.build.cap) :
    AnswersAs s (rewind (BitVec.ofNat 64 n) s) { a with position := a.position - n } 0 := by
  have hlt := h.position_lt
  have hle := h.position_le
  obtain ⟨hunder, -⟩ | ⟨-, hrewind⟩ := rewind_cases (BitVec.ofNat 64 n) s
  · have hpast := ((rewindUnderflow_ofNat_iff (by omega)).mp hunder).2
    rw [h.toNat_pos] at hpast
    exact absurd hn hpast.not_ge
  · rw [hrewind, h.unconsume_eq_seek hn]
    exact (h.seek (by omega) (by omega) (by omega)).answersAs rfl rfl 0

theorem Refines.answersAs_exec (h : Refines s a) {i : Instr} (hduty : a.dutiful s.build.cap i) :
    AnswersAs s (exec i s) (a.after i) (a.result i) := by
  cases i with
  | injectByte v => exact (h.inject hduty v).answersAs rfl rfl 0
  | readBits n => exact h.answersAs_readBits hduty
  | readOneBit => exact h.answersAs_readOneBit hduty
  | position =>
    have hresult : a.result .position = s.pos := h.pos_eq.symm
    rw [hresult]
    exact h.answersAs rfl rfl s.pos
  | rewindBits c => exact exec_rewindBits c s ▸ h.answersAs_rewind hduty.1 hduty.2
  | rewindBytes c => exact exec_rewindBytes c s ▸ h.answersAs_rewind hduty.1 hduty.2

end

/-- Settles O43: the stream's last CAP bits stand in the slots at their index modulo CAP, and a dutiful command stays
among them. -/
theorem dutifulCallerSeesTheIdealStream : Obligations.DutifulCallerSeesTheIdealStream :=
  ⟨refines_resetOf, fun _ _ _ h hduty => h.answersAs_exec hduty⟩

end Sys2Proof.Machine
end
